-- ==== Sys2Proof/Word.lean ====
section
/-! DEFINITION. The bit vectors the spec gives widths to: host words, trit cells, tryte cells
(`00_scope.md` R7, R9). -/

namespace Sys2Proof

/-- A host register or operand: `W` = 32 bits (R7). -/
abbrev Word := BitVec 32

/-- One cell of trit memory TM: `TRIT_BITS` = 2 bits, two's complement (R7, R35). -/
abbrev TritCell := BitVec 2

/-- One cell of tryte memory YM: `CHAR_BITS` = 8 bits, a character code (R7, R36). -/
abbrev TryteCode := BitVec 8

end Sys2Proof
end

