-- ==== Sys2Proof/Syntax.lean ====
section
/-! DEFINITION. The commands of `30_encoding.md` R72, the ways a command word can be illegal (R73), the
assembler lines of R78, and the actions the host and the world around TCORE can take (R186, R184, R64). -/

namespace Sys2Proof

/-- One constructor per row of `spec/opcode_table.json`. A command word has no operand field: the operands
stand in OPA..OPD (R70, R75). -/
inductive Instr where
  /-- DECODE: tryte to trit decode (R101). -/
  | decode
  /-- ENCODE: trit to tryte encode (R105). -/
  | encode
  /-- ADD: add a non-negative integer with carry (R121). -/
  | add
  /-- INC: increment by one (R125). -/
  | inc
  /-- TTEVAL: evaluate the truth table (R141). -/
  | tteval
deriving DecidableEq, Repr

/-- Why a command word is illegal (R73). Both reasons raise ILLEGAL_OP (R161). -/
inductive DecodeError where
  /-- OP is 0b000, 0b110 or 0b111. -/
  | reservedOp (op : BitVec 3)
  /-- RSV is not 0. -/
  | reservedBitsSet (rsv : BitVec 29)
deriving DecidableEq, Repr

/-- One assembler line, with the operands in the order the line names them (R78). -/
inductive AsmLine where
  | decode (src dst count : Int)
  | encode (src dst len : Int)
  | add (base len n : Int)
  | inc (base len : Int)
  | tteval (x1 x2 : Int)
deriving DecidableEq, Repr

/-- What can happen to a TCORE instance between or around its commands. The first five are the
interactions of the table of R186. -/
inductive HostAction where
  /-- A 32-bit host write to register number `n` (R20 to R28); a write to register 0, CMD, is a command. -/
  | writeReg (n : Nat) (w : Word)
  /-- A 32-bit host read of register number `n` (R20 to R28). -/
  | readReg (n : Nat)
  /-- Memory preparation: the host writes one TM cell, with any of its four codes (R35, R186). -/
  | prepareTrit (a : Nat) (v : TritCell)
  /-- Memory preparation: the host writes one YM cell (R36, R186). -/
  | prepareTryte (a : Nat) (c : TryteCode)
  /-- The platform asserts and releases reset while no command is in progress (R180). -/
  | reset
  /-- The host writes `w` to CMD and reset is asserted while that command is in progress (R184). -/
  | resetDuringCommand (w : Word)
  /-- A host access to register `n` narrower than 32 bits, which a model refuses (R29, U18). -/
  | narrowAccess (n : Nat)
  /-- A host interaction that the table of R186 excludes, such as a register access while a command runs,
  which a model refuses (U19). -/
  | accessDuringCommand
  /-- The host writes `w` to CMD and, while that command runs, other agents race on the TM cells `tms` and the YM
  cells `yms`: each of its reads of such a cell returns any value, and the cell holds any value afterwards (R64, R192;
  log 6). -/
  | raceDuringCommand (w : Word) (tms yms : List Nat)
  /-- Other agents race with one another on TM cell `a` while this instance runs no command that reaches it: the cell
  holds any value of its format afterwards (R64, R192; log 6). -/
  | raceTrit (a : Nat)
  /-- As `raceTrit`, on YM cell `a` (R64, R192). -/
  | raceTryte (a : Nat)
deriving DecidableEq, Repr

end Sys2Proof
end

