-- ==== Sys2Proof/WellFormed.lean ====
section
/-! DEFINITION. Which commands, command words and assembler lines are well formed. -/

namespace Sys2Proof

/-- A command carries no operand field (R70), so each of the five is well formed. -/
def Instr.wf : Instr → Bool
  | .decode => true
  | .encode => true
  | .add => true
  | .inc => true
  | .tteval => true

/-- A command word is legal when RSV is 0 and OP is one of 0b001 .. 0b101 (R72, R73). -/
def commandWordLegal (w : Word) : Bool :=
  w.extractLsb' 3 29 == 0#29 && decide (1 ≤ (w.extractLsb' 0 3).toNat) && decide ((w.extractLsb' 0 3).toNat ≤ 5)

/-- An assembler operand lies "in the range of a signed 32-bit integer" (R78). -/
def asmOperandWf (v : Int) : Bool := decide (-2147483648 ≤ v) && decide (v ≤ 2147483647)

/-- Every operand of the line is in range (R78). An operand that an operation would reject, such as a
negative length, is still a well-formed line: TCORE faults on it when it runs (R162). -/
def AsmLine.wf : AsmLine → Bool
  | .decode src dst count => asmOperandWf src && asmOperandWf dst && asmOperandWf count
  | .encode src dst len => asmOperandWf src && asmOperandWf dst && asmOperandWf len
  | .add base len n => asmOperandWf base && asmOperandWf len && asmOperandWf n
  | .inc base len => asmOperandWf base && asmOperandWf len
  | .tteval x1 x2 => asmOperandWf x1 && asmOperandWf x2

end Sys2Proof
end

