-- ==== Sys2Proof/Decode.lean ====
section
/-! DEFINITION. The decoder of command words and, after it, the encoder (`30_encoding.md` R70 to R74). -/

namespace Sys2Proof

/-- The OP field, CMD[2:0] (R70). -/
def opField (w : Word) : BitVec 3 := w.extractLsb' 0 3

/-- The RSV field, CMD[31:3] (R70). -/
def rsvField (w : Word) : BitVec 29 := w.extractLsb' 3 29

/-- The operation selected by OP, or the reserved value itself (R72). -/
def decodeOp (op : BitVec 3) : Except DecodeError Instr :=
  if op = 0b001#3 then .ok .decode
  else if op = 0b010#3 then .ok .encode
  else if op = 0b011#3 then .ok .add
  else if op = 0b100#3 then .ok .inc
  else if op = 0b101#3 then .ok .tteval
  else .error (.reservedOp op)

/-- Total decoding of a CMD word: the operation of R72, or the name of what makes the word illegal
(R73, R74). -/
def decodeWord (w : Word) : Except DecodeError Instr :=
  if rsvField w = 0#29 then decodeOp (opField w) else .error (.reservedBitsSet (rsvField w))

/-- The OP value of each operation (R72). -/
def opCode : Instr → BitVec 3
  | .decode => 0b001#3
  | .encode => 0b010#3
  | .add => 0b011#3
  | .inc => 0b100#3
  | .tteval => 0b101#3

/-- The CMD word of each operation: RSV = 0 above OP (R70, R72). -/
def encode (i : Instr) : Word := 0#29 ++ opCode i

/-- The instruction the decoder reads from an opcode-table row's bits. A command is exactly one 32-bit word
(R71), which the host moves whole over its bus, so no byte order enters (R55); bits above `nbits` are 0. -/
def decodeTableWord (nbits w : Nat) : Option Instr :=
  if 4294967296 ≤ w % 2 ^ nbits then none
  else
    match decodeWord (BitVec.ofNat 32 (w % 2 ^ nbits)) with
    | .ok i => some i
    | .error _ => none

end Sys2Proof
end

