-- ==== Sys2Proof/Config.lean ====
section
/-! DEFINITION. The OPEN parameters of `00_scope.md` R7 and the free values of
`93_implementation_defined.md` part 1. The opaque constants have no body that Lean can evaluate, so a
claim proved about them holds whatever they are. -/

namespace Sys2Proof

/-- The largest size a memory may have, 2^31 - 1 cells (R7). -/
def Config.maxCells : Nat := 2147483647

/-- Free choice behind `BUF_TRITS` (R7, U11; log 3). -/
opaque Config.bufTritsChoice : Nat

/-- Free choice behind `BUF_TRYTES` (R7, U11; log 3). -/
opaque Config.bufTrytesChoice : Nat

/-- `BUF_TRITS` of the machine `State.reset` describes: any value of 1 .. 2^31 - 1 (R7). The choice is
folded into that range, and every value of the range is the image of some choice. -/
def Config.bufTrits : Nat := Config.bufTritsChoice % Config.maxCells + 1

/-- `BUF_TRYTES` of the machine `State.reset` describes: any value of 1 .. 2^31 - 1 (R7). -/
def Config.bufTrytes : Nat := Config.bufTrytesChoice % Config.maxCells + 1

/-- What TM holds at power-on, by address: "Their contents at power-on are unspecified, and a model gives
each cell any value of its cell format" (R183, U9; log 4). -/
opaque Config.powerOnTrit : Nat → TritCell

/-- What YM holds at power-on, by address (R183, U9; log 4). -/
opaque Config.powerOnTryte : Nat → TryteCode

/-- A free draw for a TM cell, by the number of the draw and the address: the unspecified value left by a
reset during a command (R184, U8; log 5) or by a race (R64, U7; log 6). -/
opaque Config.freeTrit : Nat → Nat → TritCell

/-- A free draw for a YM cell, by the number of the draw and the address (R64, R184; log 5, log 6). -/
opaque Config.freeTryte : Nat → Nat → TryteCode

/-- The tryte-ROM row that a racing DECODE looks up for a code outside the alphabet, by the number of the draw and the
address of the code: the spec gives such a code no row, so it is any of the 27 (R31, R64; log 18). -/
opaque Config.freeRow : Nat → Nat → Fin 27

/-- `REG_BASE`: where register 0 sits on the host bus (R7, R60, U12). A platform parameter; "no rule of this
spec depends on" it, and no definition of the machine reads it (log 11). -/
opaque Config.regBase : Nat

/-- `REG_STRIDE`: the bus distance between two registers (R7, R60, U12; log 11). -/
opaque Config.regStride : Nat

/-- Free choice behind `LATENCY`, by the number of the command (R7, U10; log 11). -/
opaque Config.latencyChoice : Nat → Nat

/-- `LATENCY` of the k-th command: any finite count of at least 1 (R7, R187, R194). "A model represents no
time", so no definition of the machine reads it (log 11). -/
def Config.latency (k : Nat) : Nat := Config.latencyChoice k + 1

/-- The host bus address of register number `n`, in the platform's placement (R7, R28; log 11). -/
def Config.registerAddress (n : Nat) : Nat := Config.regBase + n * Config.regStride

end Sys2Proof
end

