-- ==== Sys2Proof/Machine/State.lean ====
section
/-! DEFINITION. The state of one TCORE instance (`10_state.md`, `20_memory.md`), its fault causes
(`60_exceptions.md` R160), and the reasons the model itself can stop. -/

namespace Sys2Proof.Machine

/-- The fault causes of R160, with `none` for a command that completed. They are recorded in STATUS and never
stop the machine (R170, R172). -/
inductive Cause where
  | none
  | illegalOp
  | invalidOperand
  | bounds
  | invalidTryte
  | invalidTrit
  | incOverflow
deriving DecidableEq, Repr

/-- Why the model stops with a fault. No command raises one. -/
inductive Fault where
  /-- The environment (a memory preparation or a race) names a TM address at or above `BUF_TRITS`, where R50
  gives no cell. Raised by `perform`; safe: the model claims nothing of such an access (log 7). -/
  | noSuchTrit (a : Nat)
  /-- The environment names a YM address at or above `BUF_TRYTES`, where R50 gives no cell. Raised by
  `perform`; safe (log 7). -/
  | noSuchTryte (a : Nat)
deriving DecidableEq, Repr

/-- Why the model refuses. No command raises one. -/
inductive Refusal where
  /-- An instruction with no meaning yet; raised by an arm of `exec` only, and by none now. Safe. -/
  | notModelled (mnemonic : String)
  /-- A host register access narrower than 32 bits: "a model refuses them" (R29, U18). Raised by `perform`;
  safe (log 8). -/
  | narrowAccess (n : Nat)
  /-- A host interaction the table of R186 excludes: "A model refuses any host interaction not in this
  table" (U19). Raised by `perform`; safe (log 8). -/
  | accessDuringCommand
deriving DecidableEq, Repr

/-- A memory of `size` cells of `w` bits at addresses 0 .. size - 1 (R50), as the list of the cells written
since power-on, by rising address. A cell not listed still holds its unspecified power-on value (R183); the
accessors of `Machine/Ops.lean` are the only readers of `cells`. For YM, `w` = 8 and the entries are
`Host.Cell`s. -/
structure Memory (w : Nat) where
  size : Nat
  cells : List (Nat × BitVec w)
deriving DecidableEq, Repr

/-- The whole state of one TCORE instance between two host actions (R38), and the host's remaining
actions. -/
structure State where
  /-- Register 1, OPA (R22). -/
  opa : Word
  /-- Register 2, OPB (R22). -/
  opb : Word
  /-- Register 3, OPC (R22). -/
  opc : Word
  /-- Register 4, OPD (R22). -/
  opd : Word
  /-- Register 5, RESULT (R23). -/
  result : Word
  /-- Register 6, STATUS: ERR [3:0], ERR_ANY [4] (R24). -/
  status : Word
  /-- Register 7, FADDR (R26). -/
  faddr : Word
  /-- Trit memory TM; its size is `BUF_TRITS` (R50). -/
  tm : Memory 2
  /-- Tryte memory YM; its size is `BUF_TRYTES` (R50). -/
  ym : Memory 8
  /-- The model's own: the host's actions still to come, oldest first (R186, R188; log 1). -/
  pending : List HostAction
  /-- The model's own: the words returned to host register reads, newest first (log 2). -/
  readData : List Word
  /-- The model's own: how many free draws have been taken (R64, R184; log 5). -/
  draws : Nat
deriving DecidableEq, Repr

/-- The machine when the power-on reset is released: every register 0 (R181), nothing written to either
memory yet (R183), sizes as the OPEN parameters give them (R7), and a host that has done nothing. -/
def State.reset : State where
  opa := 0#32
  opb := 0#32
  opc := 0#32
  opd := 0#32
  result := 0#32
  status := 0#32
  faddr := 0#32
  tm := { size := Config.bufTrits, cells := [] }
  ym := { size := Config.bufTrytes, cells := [] }
  pending := []
  readData := []
  draws := 0

end Sys2Proof.Machine
end

