-- ==== Sys2Proof/Machine/Operands.lean ====
section
/-! DEFINITION. How operands, trits and results pass between words, cells and integers
(`00_scope.md` R10, R14; `30_encoding.md` R75 to R77). -/

namespace Sys2Proof.Machine

/-- `sint32(w)`: the two's-complement value of a word (R10, R75). -/
def sint32 (w : Word) : Int := w.toInt

/-- `word32(v)`: the two's-complement word of an integer (R10). -/
def word32 (v : Int) : Word := BitVec.ofInt 32 v

/-- An operand that is an offset, a count, a length or an addend: its exact value when it is at least 0, and
nothing when it is negative, which R77 makes an INVALID_OPERAND. -/
def natOperand (w : Word) : Option Nat :=
  if sint32 w < 0 then none else some (sint32 w).toNat

/-- An operand that is a trit: its value when it is -1, 0 or 1, and nothing otherwise (R77). -/
def tritOperand (w : Word) : Option Int :=
  if sint32 w = -1 then some (-1)
  else if sint32 w = 0 then some 0
  else if sint32 w = 1 then some 1
  else none

/-- The value of a trit cell as TRead gives it: an integer in {-2, -1, 0, 1} (R12, R35). -/
def tritValue (t : TritCell) : Int := t.toInt

/-- The cell that TWrite stores for a trit (R12, R35). -/
def tritCell (v : Int) : TritCell := BitVec.ofInt 2 v

/-- The invalid trit code 0b10, whose value is -2 (R35). -/
def invalidTrit : TritCell := 0b10#2

/-- The balanced value of a trit sequence, least significant first (R14, R53). -/
def balancedValue : List TritCell → Int
  | [] => 0
  | t :: ts => tritValue t + 3 * balancedValue ts

end Sys2Proof.Machine
end

