-- ==== Sys2Proof/Machine/Assembler.lean ====
section
/-! DEFINITION. The assembler of `30_encoding.md` R78 to R80: the text of one line, and the host writes it expands
to. -/

namespace Sys2Proof.Machine

/-! ## Text of a line (R78; log 13) -/

/-- The value of a decimal or hexadecimal digit. -/
def digitValue (c : Char) : Option Nat :=
  if 48 ≤ c.toNat ∧ c.toNat ≤ 57 then some (c.toNat - 48)
  else if 65 ≤ c.toNat ∧ c.toNat ≤ 70 then some (c.toNat - 55)
  else if 97 ≤ c.toNat ∧ c.toNat ≤ 102 then some (c.toNat - 87)
  else none

/-- The number that all of the characters, as digits of the base, spell after `acc`. -/
def digitsFrom (base acc : Nat) : List Char → Option Nat
  | [] => some acc
  | c :: cs =>
    match digitValue c with
    | some d => if d < base then digitsFrom base (base * acc + d) cs else none
    | none => none

/-- A non-empty run of digits. -/
def parseDigits (base : Nat) (cs : List Char) : Option Nat :=
  if cs.isEmpty then none else digitsFrom base 0 cs

/-- "Operands are decimal integers, or `0x` hexadecimal" (R78); only a decimal one takes a minus sign
(log 13). -/
def parseOperand : List Char → Option Int
  | '-' :: cs => (parseDigits 10 cs).map fun n => -(n : Int)
  | '0' :: 'x' :: cs => (parseDigits 16 cs).map fun n => (n : Int)
  | cs => (parseDigits 10 cs).map fun n => (n : Int)

/-- A blank or a tab. -/
def isBlank (c : Char) : Bool := c == ' ' || c == '\t'

/-- The characters without leading and trailing blanks. -/
def trimBlanks (cs : List Char) : List Char :=
  (((cs.dropWhile isBlank).reverse).dropWhile isBlank).reverse

/-- The pieces between commas. -/
def splitCommas : List Char → List (List Char)
  | [] => [[]]
  | c :: cs =>
    if c = ',' then [] :: splitCommas cs
    else
      match splitCommas cs with
      | [] => [[c]]
      | piece :: pieces => (c :: piece) :: pieces

/-- Every piece as an operand, or nothing. -/
def parseOperands : List (List Char) → Option (List Int)
  | [] => some []
  | piece :: pieces =>
    match parseOperand (trimBlanks piece), parseOperands pieces with
    | some v, some vs => some (v :: vs)
    | _, _ => none

/-- The line a mnemonic in capitals and its operands name (R78). -/
def buildLine (mnemonic : List Char) (operands : List Int) : Option AsmLine :=
  match operands with
  | [a, b, c] =>
    if mnemonic = ['D', 'E', 'C', 'O', 'D', 'E'] then some (.decode a b c)
    else if mnemonic = ['E', 'N', 'C', 'O', 'D', 'E'] then some (.encode a b c)
    else if mnemonic = ['A', 'D', 'D'] then some (.add a b c)
    else none
  | [a, b] =>
    if mnemonic = ['I', 'N', 'C'] then some (.inc a b)
    else if mnemonic = ['T', 'T', 'E', 'V', 'A', 'L'] then some (.tteval a b)
    else none
  | _ => none

/-- "A `;` starts a comment that runs to the end of the line" (R78). -/
def withoutComment (line : List Char) : List Char := line.takeWhile fun c => !(c == ';')

/-- A mnemonic and a following blank, then the operands. -/
def parseBody (body : List Char) : Option AsmLine :=
  match body.dropWhile Char.isAlpha with
  | [] => none
  | c :: rest =>
    if isBlank c then
      match parseOperands (splitCommas rest) with
      | some operands => buildLine ((body.takeWhile Char.isAlpha).map Char.toUpper) operands
      | none => none
    else none

/-- The command a line of text is, when it is one; "Mnemonics are case-insensitive" and operands lie in the range of
a signed 32-bit integer (R78). -/
def parseLine (line : List Char) : Option AsmLine :=
  match parseBody (trimBlanks (withoutComment line)) with
  | some l => if l.wf then some l else none
  | none => none

/-! ## Expansion (R79) -/

/-- The operation of a line. -/
def lineInstr : AsmLine → Instr
  | .decode _ _ _ => .decode
  | .encode _ _ _ => .encode
  | .add _ _ _ => .add
  | .inc _ _ => .inc
  | .tteval _ _ => .tteval

/-- The operand writes of a line, "in the order OPA, OPB, OPC, OPD"; registers it does not name are not written
(R78, R79). -/
def operandWrites : AsmLine → List HostAction
  | .decode src dst count => [.writeReg 1 (word32 src), .writeReg 2 (word32 dst), .writeReg 3 (word32 count)]
  | .encode src dst len => [.writeReg 1 (word32 src), .writeReg 2 (word32 dst), .writeReg 3 (word32 len)]
  | .add base len n => [.writeReg 1 (word32 base), .writeReg 3 (word32 len), .writeReg 4 (word32 n)]
  | .inc base len => [.writeReg 1 (word32 base), .writeReg 3 (word32 len)]
  | .tteval x1 x2 => [.writeReg 1 (word32 x1), .writeReg 2 (word32 x2)]

/-- "An assembler line expands, in order, into" its operand writes and "then one host write of the line's CMD word
to CMD" (R79). -/
def expandLine (l : AsmLine) : List HostAction :=
  operandWrites l ++ [.writeReg 0 (encode (lineInstr l))]

/-- The host writes of a program's lines, in order; there are no pseudo-instructions (R80). -/
def expandProgram : List AsmLine → List HostAction
  | [] => []
  | l :: ls => expandLine l ++ expandProgram ls

end Sys2Proof.Machine
end

