-- ==== Sys2Proof/Machine/Flags.lean ====
section
/-! DEFINITION. The fields of STATUS and how commands compute them (`10_state.md` R24,
`60_exceptions.md` R160). TCORE has no other flag (R27). -/

namespace Sys2Proof.Machine

/-- The code of a cause, as STATUS.ERR holds it (R160). -/
def Cause.code : Cause → BitVec 4
  | .none => 0#4
  | .illegalOp => 1#4
  | .invalidOperand => 2#4
  | .bounds => 3#4
  | .invalidTryte => 4#4
  | .invalidTrit => 5#4
  | .incOverflow => 6#4

/-- STATUS.ERR, bits [3:0] (R24). -/
def errField (status : Word) : BitVec 4 := status.extractLsb' 0 4

/-- STATUS.ERR_ANY, bit [4] (R24). -/
def errAnyBit (status : Word) : Bool := status.getLsbD 4

/-- The STATUS word with the given ERR_ANY and ERR; bits [31:5] are hardwired 0 (R24). -/
def statusWord (errAny : Bool) (c : Cause) : Word := 0#27 ++ BitVec.ofBool errAny ++ c.code

/-- STATUS as a host read sees it: the reserved bits [31:5] "read 0" (R24; log 15). -/
def statusRead (status : Word) : Word := status &&& 0x0000001F#32

/-- STATUS after a fault: ERR is the cause and ERR_ANY is 1 (R170). -/
def statusAfterFault (c : Cause) : Word := statusWord true c

/-- STATUS after a completing command: ERR is 0 and ERR_ANY is as it was (R171). -/
def statusAfterCompletion (before : Word) : Word := statusWord (errAnyBit before) .none

end Sys2Proof.Machine
end

