-- ==== Sys2Proof/Machine/Ops.lean ====
section
/-! DEFINITION. The named operations over memory and registers: cell access (`20_memory.md`), the fault and
completion steps every command ends with (`60_exceptions.md` R170, R171), and the register effect of reset
(`70_reset_and_hazards.md` R181). -/

namespace Sys2Proof.Machine

/-! ## Cells -/

/-- The cell listed for address `a`, if one is. -/
def findCell {w : Nat} : List (Nat × BitVec w) → Nat → Option (BitVec w)
  | [], _ => none
  | (b, v) :: rest, a => if a = b then some v else findCell rest a

/-- The list with `v` at address `a`, addresses still rising. -/
def putCell {w : Nat} : List (Nat × BitVec w) → Nat → BitVec w → List (Nat × BitVec w)
  | [], a, v => [(a, v)]
  | (b, u) :: rest, a, v =>
    if a < b then (a, v) :: (b, u) :: rest
    else if a = b then (a, v) :: rest
    else (b, u) :: putCell rest a v

/-- Addresses strictly rise from `low` on and stay below `size`. -/
def cellsWf {w : Nat} (size : Nat) : Nat → List (Nat × BitVec w) → Bool
  | _, [] => true
  | low, (a, _) :: rest => decide (low ≤ a) && decide (a < size) && cellsWf size (a + 1) rest

/-- The canonical form of a memory: addresses strictly rising and inside it. An unlisted cell holds no written
value, so no listed value can equal what it holds as data (log 4). -/
def Memory.wf {w : Nat} (m : Memory w) : Bool := cellsWf m.size 0 m.cells

/-- MemRead of one cell: the value written last, or else what `powerOn` says the cell came up with (R12,
R57, R183). Reading has no side effect (R59). -/
def Memory.read {w : Nat} (powerOn : Nat → BitVec w) (m : Memory w) (a : Nat) : BitVec w :=
  (findCell m.cells a).getD (powerOn a)

/-- MemWrite of one cell; no other cell changes (R12, R57, R59). -/
def Memory.write {w : Nat} (m : Memory w) (a : Nat) (v : BitVec w) : Memory w :=
  { m with cells := putCell m.cells a v }

/-- Writes a list of cells to the addresses from `a` upward. -/
def Memory.writeAll {w : Nat} (m : Memory w) (a : Nat) : List (BitVec w) → Memory w
  | [] => m
  | v :: vs => (m.write a v).writeAll (a + 1) vs

/-- Reads the window [a, a + n), lowest address first. -/
def Memory.window {w : Nat} (powerOn : Nat → BitVec w) (m : Memory w) (a : Nat) : Nat → List (BitVec w)
  | 0 => []
  | n + 1 => m.read powerOn a :: m.window powerOn (a + 1) n

/-- The TM cell at an address. -/
def readTrit (m : Memory 2) (a : Nat) : TritCell := m.read Config.powerOnTrit a

/-- The YM cell at an address, YRead of R12. -/
def readTryte (m : Memory 8) (a : Nat) : TryteCode := m.read Config.powerOnTryte a

/-- TRead of R12: a TM cell as an integer in {-2, -1, 0, 1}. -/
def tRead (m : Memory 2) (a : Nat) : Int := tritValue (readTrit m a)

/-- The trit window [a, a + n) (R14). -/
def tritsAt (m : Memory 2) (a n : Nat) : List TritCell := m.window Config.powerOnTrit a n

/-- The tryte window [a, a + n). -/
def trytesAt (m : Memory 8) (a n : Nat) : List TryteCode := m.window Config.powerOnTryte a n

/-- `val(T, b, L)`, the balanced value of a trit window (R14). -/
def windowValue (m : Memory 2) (b len : Nat) : Int := balancedValue (tritsAt m b len)

/-- The lowest address from `a` on whose cell satisfies `bad`: the address a check pass that runs "lowest
address first" reports (R164, R165). -/
def firstBad {w : Nat} (bad : BitVec w → Bool) (a : Nat) : List (BitVec w) → Option Nat
  | [] => none
  | v :: vs => if bad v then some a else firstBad bad (a + 1) vs

/-- `n` free draws for the cells from `a` upward (R64, R184). -/
def freeCells {w : Nat} (free : Nat → BitVec w) (a : Nat) : Nat → List (BitVec w)
  | 0 => []
  | n + 1 => free a :: freeCells free (a + 1) n

/-! ## State updates -/

/-- TM replaced. -/
def State.withTm (s : State) (m : Memory 2) : State := { s with tm := m }

/-- YM replaced. -/
def State.withYm (s : State) (m : Memory 8) : State := { s with ym := m }

/-- The host's remaining actions replaced. -/
def State.withPending (s : State) (p : List HostAction) : State := { s with pending := p }

/-- A word returned to a host read (log 2). -/
def State.withRead (s : State) (w : Word) : State := { s with readData := w :: s.readData }

/-- One more free draw taken. -/
def State.drawn (s : State) : State := { s with draws := s.draws + 1 }

/-! ## How a command ends -/

/-- `raise Fault(cause, faddr)`: the ONE operation that records a fault, "as one step" (R13, R170). It writes no
memory cell and no operand (R169), and TCORE is ready for the next command. -/
def raiseFault (c : Cause) (faddr : Nat) (s : State) : State :=
  { s with result := 0#32, status := statusAfterFault c, faddr := word32 faddr }

/-- `reg[RESULT] <- result` and then `complete` (R171). TCORE has no return from a fault: the next command
simply runs (R170, R173). -/
def complete (result : Word) (s : State) : State :=
  { s with result := result, status := statusAfterCompletion s.status, faddr := 0#32 }

/-- The registers after reset (R181). Reset writes no cell of TM or YM (R183), and the host's own records are
not TCORE's to clear. -/
def State.resetRegisters (s : State) : State :=
  { s with opa := 0#32, opb := 0#32, opc := 0#32, opd := 0#32, result := 0#32, status := 0#32, faddr := 0#32 }

end Sys2Proof.Machine
end

