-- ==== Sys2Proof/Machine/Arith.lean ====
section
/-! DEFINITION. Trit arithmetic: ADD and INC (`42_arith.md`). Both read a cell of their window twice, ADD in its check
pass and in its carry chain, INC in its chain's test and when it takes the trit to increment. The memory each pass sees is
an argument: both are TM at the start of the command (R63), but for cells that other agents race on (R64,
`Machine/Races.lean`). -/

namespace Sys2Proof.Machine

/-- The digit sum of one ADD stage before normalisation: TRead + (n mod 3) (R121). -/
def stageSum (t : TritCell) (n : Nat) : Int := tritValue t + ((n % 3 : Nat) : Int)

/-- The trit an ADD stage writes: the sum, less 3 when it exceeds 1 (R121). -/
def stageDigit (t : TritCell) (n : Nat) : TritCell :=
  if 1 < stageSum t n then tritCell (stageSum t n - 3) else tritCell (stageSum t n)

/-- The carry an ADD stage passes upward: n div 3, plus 1 when the sum exceeds 1 (R120, R121). -/
def stageCarry (t : TritCell) (n : Nat) : Nat := if 1 < stageSum t n then n / 3 + 1 else n / 3

/-- The carry chain over a whole window, least significant trit first: the cells written (R121). -/
def addDigits : List TritCell → Nat → List TritCell
  | [], _ => []
  | t :: ts, n => stageDigit t n :: addDigits ts (stageCarry t n)

/-- The residual carry after the whole window (R121). -/
def addCarry : List TritCell → Nat → Nat
  | [], n => n
  | t :: ts, n => addCarry ts (stageCarry t n)

/-- ADD on non-negative operands: the checks of R121 from (2) on, then its writes. Its check pass sees TM as
`checked`, its carry chain as `used`. -/
def addSeeing (checked used : Memory 2) (base len n : Nat) (s : State) : State :=
  if s.tm.size < base + len then raiseFault .bounds 0 s
  else
    match firstBad (fun t => t == invalidTrit) base (tritsAt checked base len) with
    | some a => raiseFault .invalidTrit a s
    | none =>
      complete (word32 (addCarry (tritsAt used base len) n))
        (s.withTm (s.tm.writeAll base (addDigits (tritsAt used base len) n)))

/-- ADD (R121): base = OPA, len = OPC, n = OPD. -/
def runAddSeeing (checked used : Memory 2) (s : State) : State :=
  match natOperand s.opa, natOperand s.opc, natOperand s.opd with
  | some base, some len, some n => addSeeing checked used base len n s
  | _, _, _ => raiseFault .invalidOperand 0 s

/-- ADD with no race: both passes see TM as it is. -/
def runAdd (s : State) : State := runAddSeeing s.tm s.tm s

/-- The meaning of ADD. -/
def execAdd (s : State) : Host.Outcome State Fault Refusal := .next (runAdd s)

/-- How many cells from the lowest on equal 1: the k at which INC's chain stops, or the whole window
(R125). -/
def rippleLength : List TritCell → Nat
  | [] => 0
  | t :: ts => if tritValue t = 1 then rippleLength ts + 1 else 0

/-- INC once its chain has stopped at index `k` of the window: the checks (3), (4) and (5) of R125 in that
order, then the writes. The trit of that cell is read from `used`. -/
def incAt (used : Memory 2) (base len k : Nat) (s : State) : State :=
  if k = len ∧ s.tm.size ≤ base + len then raiseFault .bounds 0 s
  else if tRead used (base + k) = -2 then raiseFault .invalidTrit (base + k) s
  else if k = len ∧ tRead used (base + k) = 1 then raiseFault .incOverflow (base + len) s
  else
    complete 0#32
      (s.withTm (s.tm.writeAll base
        (List.replicate k (tritCell (-1)) ++ [tritCell (tRead used (base + k) + 1)])))

/-- INC on non-negative operands: check (2) of R125, then the chain, which sees TM as `tested`. -/
def incSeeing (tested used : Memory 2) (base len : Nat) (s : State) : State :=
  if s.tm.size < base + len then raiseFault .bounds 0 s
  else incAt used base len (rippleLength (tritsAt tested base len)) s

/-- INC (R125): base = OPA, len = OPC. -/
def runIncSeeing (tested used : Memory 2) (s : State) : State :=
  match natOperand s.opa, natOperand s.opc with
  | some base, some len => incSeeing tested used base len s
  | _, _ => raiseFault .invalidOperand 0 s

/-- INC with no race: every read sees TM as it is. -/
def runInc (s : State) : State := runIncSeeing s.tm s.tm s

/-- The meaning of INC. -/
def execInc (s : State) : Host.Outcome State Fault Refusal := .next (runInc s)

end Sys2Proof.Machine
end

