-- ==== Sys2Proof/Machine/Roms.lean ====
section
/-! DEFINITION. The three constant ROMs (`10_state.md` R30, R31, R33). "No ROM can be written" (R34), so they are
constants and no part of State. -/

namespace Sys2Proof.Machine

/-- `ALPHA[0..26]`: the character codes of `9`, `A`, ..., `Z` (R30). -/
def alphaRom : List TryteCode :=
  [0x39#8, 0x41#8, 0x42#8, 0x43#8, 0x44#8, 0x45#8, 0x46#8, 0x47#8, 0x48#8] ++
  [0x49#8, 0x4A#8, 0x4B#8, 0x4C#8, 0x4D#8, 0x4E#8, 0x4F#8, 0x50#8, 0x51#8] ++
  [0x52#8, 0x53#8, 0x54#8, 0x55#8, 0x56#8, 0x57#8, 0x58#8, 0x59#8, 0x5A#8]

/-- `TRYTE_ROM[0..26]`: the triplets (t0, t1, t2), t0 least significant, by alphabet index (R31). -/
def tryteRom : List (Int × Int × Int) :=
  [(0, 0, 0), (1, 0, 0), (-1, 1, 0), (0, 1, 0), (1, 1, 0), (-1, -1, 1), (0, -1, 1), (1, -1, 1), (-1, 0, 1)] ++
  [(0, 0, 1), (1, 0, 1), (-1, 1, 1), (0, 1, 1), (1, 1, 1), (-1, -1, -1), (0, -1, -1), (1, -1, -1), (-1, 0, -1)] ++
  [(0, 0, -1), (1, 0, -1), (-1, 1, -1), (0, 1, -1), (1, 1, -1), (-1, -1, 0), (0, -1, 0), (1, -1, 0), (-1, 0, 0)]

/-- `TT_ROM[0..10]`: the flat truth table (R33). Entries 3 and 7 are never read (U20). -/
def ttRom : List Int := [1, 0, -1, 0, 1, -1, 0, 0, -1, 1, 0]

/-- One of "the 27 codes of rule R30: 0x39 and 0x41..0x5A" (R36). -/
def validTryte (c : TryteCode) : Bool :=
  c == 0x39#8 || (decide (0x41 ≤ c.toNat) && decide (c.toNat ≤ 0x5A))

/-- The alphabet index of a valid code (R37). -/
def alphaIndex (c : TryteCode) : Nat := if c = 0x39#8 then 0 else c.toNat - 0x41 + 1

/-- `ALPHA[v]`. The default is never taken: every index a command forms is below 27 (R106; log 12). -/
def alphaAt (v : Nat) : TryteCode := alphaRom.getD v 0x39#8

/-- `TRYTE_ROM[i]`. The default is never taken: every index a command forms is below 27 (R36, R37; log 12). -/
def tryteRow (i : Nat) : Int × Int × Int := tryteRom.getD i (0, 0, 0)

/-- `TT_ROM[i]` (R142). The default is never taken: every index TTEVAL forms is below 11 (log 12). -/
def ttRomAt (i : Nat) : Int := ttRom.getD i 0

end Sys2Proof.Machine
end

