-- ==== Sys2Proof/Machine/Codec.lean ====
section
/-! DEFINITION. The tryte/trit codec: DECODE and ENCODE (`41_codec.md`). A command reads its source window in a check
pass and again in its write pass. Each pass reads a window as a list, and the new cells are written afterwards (log 10).
The memory each pass sees is an argument: both are the memory at the start of the command (R63), but for cells that other
agents race on, where each read returns any value (R64, `Machine/Races.lean`). -/

namespace Sys2Proof.Machine

/-- The three cells DECODE writes for one valid code: (t0, t1, t2), t0 least significant (R54, R101). -/
def tripletOf (c : TryteCode) : List TritCell :=
  [tritCell (tryteRow (alphaIndex c)).1,
   tritCell (tryteRow (alphaIndex c)).2.1,
   tritCell (tryteRow (alphaIndex c)).2.2]

/-- The cells DECODE writes for a sequence of trytes: tryte i at positions 3i, 3i + 1 and 3i + 2 (R54). -/
def decodeTrytes : List TryteCode → List TritCell
  | [] => []
  | c :: cs => tripletOf c ++ decodeTrytes cs

/-- DECODE on non-negative operands: the checks of R101 from (2) on, then its writes. Its check pass sees YM as
`checked`, its write pass as `used`. -/
def decodeSeeing (checked used : Memory 8) (src dst count : Nat) (s : State) : State :=
  if s.ym.size < src + count then raiseFault .bounds 0 s
  else if s.tm.size < dst + 3 * count then raiseFault .bounds 0 s
  else
    match firstBad (fun c => !validTryte c) src (trytesAt checked src count) with
    | some a => raiseFault .invalidTryte a s
    | none => complete 0#32 (s.withTm (s.tm.writeAll dst (decodeTrytes (trytesAt used src count))))

/-- DECODE (R101): src = OPA, dst = OPB, count = OPC. -/
def runDecodeSeeing (checked used : Memory 8) (s : State) : State :=
  match natOperand s.opa, natOperand s.opb, natOperand s.opc with
  | some src, some dst, some count => decodeSeeing checked used src dst count s
  | _, _, _ => raiseFault .invalidOperand 0 s

/-- DECODE with no race: both passes see YM as it is. -/
def runDecode (s : State) : State := runDecodeSeeing s.ym s.ym s

/-- The meaning of DECODE. -/
def execDecode (s : State) : Host.Outcome State Fault Refusal := .next (runDecode s)

/-- "if v < 0: v <- v + 27" (R105), as an index of ALPHA. -/
def alphabetIndexOfValue (v : Int) : Nat := (if v < 0 then v + 27 else v).toNat

/-- The character of one group of up to three trits; a missing trit is left out of the sum (R105, R107). -/
def groupCode (group : List TritCell) : TryteCode := alphaAt (alphabetIndexOfValue (balancedValue group))

/-- The characters of a trit sequence, one for each group of three, the last group possibly partial
(R105, R107). -/
def encodeTrits : List TritCell → List TryteCode
  | [] => []
  | [t0] => [groupCode [t0]]
  | [t0, t1] => [groupCode [t0, t1]]
  | t0 :: t1 :: t2 :: rest => groupCode [t0, t1, t2] :: encodeTrits rest

/-- G = ceil(len / 3), the number of groups (R105). -/
def groupCount (len : Nat) : Nat := (len + 2) / 3

/-- ENCODE on non-negative operands: the checks of R105 from (2) on, then its writes. Its check pass sees TM as
`checked`, its write pass as `used`. -/
def encodeSeeing (checked used : Memory 2) (src dst len : Nat) (s : State) : State :=
  if s.tm.size < src + len then raiseFault .bounds 0 s
  else if s.ym.size < dst + groupCount len then raiseFault .bounds 0 s
  else
    match firstBad (fun t => t == invalidTrit) src (tritsAt checked src len) with
    | some a => raiseFault .invalidTrit a s
    | none => complete 0#32 (s.withYm (s.ym.writeAll dst (encodeTrits (tritsAt used src len))))

/-- ENCODE (R105): src = OPA, dst = OPB, len = OPC. -/
def runEncodeSeeing (checked used : Memory 2) (s : State) : State :=
  match natOperand s.opa, natOperand s.opb, natOperand s.opc with
  | some src, some dst, some len => encodeSeeing checked used src dst len s
  | _, _, _ => raiseFault .invalidOperand 0 s

/-- ENCODE with no race: both passes see TM as it is. -/
def runEncode (s : State) : State := runEncodeSeeing s.tm s.tm s

/-- The meaning of ENCODE. -/
def execEncode (s : State) : Host.Outcome State Fault Refusal := .next (runEncode s)

end Sys2Proof.Machine
end

