-- ==== Sys2Proof/Machine/TruthTable.lean ====
section
/-! DEFINITION. The ternary truth-table evaluator: TTEVAL (`43_truth_table.md`), with the three forms of its
function: the value table, the gate network and the ROM mux. -/

namespace Sys2Proof.Machine

/-- The canonical function f by its value table (R140, R149). The last row is taken only for x1 = x2 = 1 on the
domain {-1, 0, 1}. -/
def truthTable (x1 x2 : Int) : Int :=
  if x2 = -1 then (if x1 = -1 then 1 else if x1 = 0 then 1 else -1)
  else if x2 = 0 then (if x1 = -1 then 0 else if x1 = 0 then -1 else 1)
  else (if x1 = -1 then -1 else if x1 = 0 then 0 else 0)

/-- The pair of bits of an input: 0 is (1, 1), 1 is (0, 1), -1 is (1, 0) (R143). -/
def inputPair (x : Int) : Bool × Bool :=
  if x = 0 then (true, true) else if x = 1 then (false, true) else (true, false)

/-- The gate `rt(a, b, c, d) = (a XOR d) AND (NOT(b) OR c)` (R144). -/
def gateRt (a b c d : Bool) : Bool := (a ^^ d) && (!b || c)

/-- The gate `lt(a, b, c, d) = (b XOR c) OR rt(a, b, c, d)` (R144). -/
def gateLt (a b c d : Bool) : Bool := (b ^^ c) || gateRt a b c d

/-- Output decoding of (y1, y2) (R145). -/
def decodeOut (y1 y2 : Bool) : Int :=
  if y1 && !y2 then -1 else if y1 && y2 then 0 else 1

/-- The gate network, as the pseudocode of R141 runs it. -/
def gateNetwork (x1 x2 : Int) : Int :=
  decodeOut
    (!gateRt (inputPair x1).1 (inputPair x1).2 (inputPair x2).1 (inputPair x2).2)
    (gateLt (inputPair x1).1 (inputPair x1).2 (inputPair x2).1 (inputPair x2).2)

/-- The mux form: `TT_ROM[4·x1 + x2 + 5]` (R142). -/
def romMux (x1 x2 : Int) : Int := ttRomAt (4 * x1 + x2 + 5).toNat

/-- TTEVAL (R141): x1 = OPA, x2 = OPB. "An implementation may compute `out` with the gate network or with the ROM";
this is the pseudocode's gate network (log 14). -/
def runTteval (s : State) : State :=
  match tritOperand s.opa, tritOperand s.opb with
  | some x1, some x2 => complete (word32 (gateNetwork x1 x2)) s
  | _, _ => raiseFault .invalidOperand 0 s

/-- The meaning of TTEVAL. -/
def execTteval (s : State) : Host.Outcome State Fault Refusal := .next (runTteval s)

end Sys2Proof.Machine
end

