-- ==== Sys2Proof/Machine/Dispatch.lean ====
section
/-! DEFINITION. One arm per instruction (`30_encoding.md` R72). -/

namespace Sys2Proof.Machine

def exec (i : Instr) (s : State) : Host.Outcome State Fault Refusal :=
  match i with
  | .decode => Sys2Proof.Machine.execDecode s
  | .encode => Sys2Proof.Machine.execEncode s
  | .add => Sys2Proof.Machine.execAdd s
  | .inc => Sys2Proof.Machine.execInc s
  | .tteval => Sys2Proof.Machine.execTteval s

end Sys2Proof.Machine
end

