-- ==== Sys2Proof/Machine/Races.lean ====
section
/-! DEFINITION. A command while other agents race on cells it reads or writes (`20_memory.md` R64,
`70_reset_and_hazards.md` R192). "After the race the cell holds any value of its cell format, and a read racing with the
write returns any value of that format." A command reads a cell at most once in each of two passes, so a race takes three
free draws: one for the reads of each pass, one for what the cells hold afterwards (log 6). -/

namespace Sys2Proof.Machine

/-- A memory in which each listed cell holds its free draw. -/
def Memory.freeAt {w : Nat} (free : Nat → BitVec w) : List Nat → Memory w → Memory w
  | [], m => m
  | a :: rest, m => (Memory.freeAt free rest m).write a (free a)

/-- TM as pass `pass` of a command sees it when other agents race on the listed cells (R64). -/
def tmSeen (pass : Nat) (raced : List Nat) (s : State) : Memory 2 :=
  s.tm.freeAt (Config.freeTrit (s.draws + pass)) raced

/-- YM as pass `pass` of a command sees it when other agents race on the listed cells (R64). -/
def ymSeen (pass : Nat) (raced : List Nat) (s : State) : Memory 8 :=
  s.ym.freeAt (Config.freeTryte (s.draws + pass)) raced

/-- The code DECODE's write pass looks up in a raced cell: the one its read returns or, where that is none of the 27 and
has no row of the tryte ROM (R31, R37), the code of a free row. The three cells then written are trits all the same, as R35
asks (log 18). -/
def lookedUp (draw a : Nat) : TryteCode :=
  if validTryte (Config.freeTryte draw a) then Config.freeTryte draw a else alphaAt (Config.freeRow draw a).val

/-- YM as DECODE's write pass uses it when other agents race on the listed cells: `ymSeen` of the second pass, each raced
code as `lookedUp` has it. -/
def ymLookedUp (raced : List Nat) (s : State) : Memory 8 :=
  s.ym.freeAt (lookedUp (s.draws + 1)) raced

/-- An instruction's meaning when other agents race on the listed TM and YM cells. -/
def runRacing (i : Instr) (tms yms : List Nat) (s : State) : State :=
  match i with
  | .decode => runDecodeSeeing (ymSeen 0 yms s) (ymLookedUp yms s) s
  | .encode => runEncodeSeeing (tmSeen 0 tms s) (tmSeen 1 tms s) s
  | .add => runAddSeeing (tmSeen 0 tms s) (tmSeen 1 tms s) s
  | .inc => runIncSeeing (tmSeen 0 tms s) (tmSeen 1 tms s) s
  | .tteval => runTteval s

/-- After the race each listed cell holds a free draw (R64); the race's three draws are taken. -/
def settle (tms yms : List Nat) (s : State) : State :=
  (((s.withTm (s.tm.freeAt (Config.freeTrit (s.draws + 2)) tms)).withYm
    (s.ym.freeAt (Config.freeTryte (s.draws + 2)) yms)).drawn).drawn.drawn

/-- A host write of `w` to CMD whose command races with other agents on the listed cells. An illegal word reads and
writes no cell (R161). -/
def raceDuring (w : Word) (tms yms : List Nat) (s : State) : State :=
  match decodeWord w with
  | .ok i => settle tms yms (runRacing i tms yms s)
  | .error _ => settle tms yms (raiseFault .illegalOp 0 s)

/-- The first listed address that has no cell in a memory of the given size (R50). -/
def firstAbsent (size : Nat) : List Nat → Option Nat
  | [] => none
  | a :: rest => if size ≤ a then some a else firstAbsent size rest

end Sys2Proof.Machine
end

