-- ==== Sys2Proof/Machine/Windows.lean ====
section
/-! DEFINITION. The write window of a command (`20_memory.md` R51) and what a reset during the command leaves in
it (`70_reset_and_hazards.md` R184). A window over the integers is a pair (first
address, first address past it); the cells in it are a pair (first address, number of cells). -/

namespace Sys2Proof.Machine

/-- The cells of a memory of the given size whose addresses lie in [lo, hi), a window over the integers (R10, R52): only
addresses from 0 up to the size have a cell (R50). -/
def cellsIn (size : Nat) (window : Int × Int) : Nat × Nat :=
  (window.1.toNat, min window.2.toNat size - window.1.toNat)

/-- DECODE's write window, [dst, dst + 3·count) (R51). -/
def decodeWrites (s : State) : Int × Int := (sint32 s.opb, sint32 s.opb + 3 * sint32 s.opc)

/-- ENCODE's write window, [dst, dst + ceil(len/3)) (R51). -/
def encodeWrites (s : State) : Int × Int := (sint32 s.opb, sint32 s.opb + (sint32 s.opc + 2) / 3)

/-- ADD's write window, [base, base + len) (R51). -/
def addWrites (s : State) : Int × Int := (sint32 s.opa, sint32 s.opa + sint32 s.opc)

/-- The k of R125. Where a check before the chain fails, R125 sets no k; the model then takes the greatest k that R51
allows, len (log 5). -/
def incReach (s : State) : Int :=
  match natOperand s.opa, natOperand s.opc with
  | some base, some len =>
    if s.tm.size < base + len then (len : Int) else (rippleLength (tritsAt s.tm base len) : Int)
  | _, _ => sint32 s.opc

/-- INC's write window, the cells base .. base + k (R51). -/
def incWrites (s : State) : Int × Int := (sint32 s.opa, sint32 s.opa + incReach s + 1)

/-- The TM cells in a command's write window (R51). -/
def tmWrites : Instr → State → Nat × Nat
  | .decode, s => cellsIn s.tm.size (decodeWrites s)
  | .encode, _ => (0, 0)
  | .add, s => cellsIn s.tm.size (addWrites s)
  | .inc, s => cellsIn s.tm.size (incWrites s)
  | .tteval, _ => (0, 0)

/-- The YM cells in a command's write window (R51). -/
def ymWrites : Instr → State → Nat × Nat
  | .decode, _ => (0, 0)
  | .encode, s => cellsIn s.ym.size (encodeWrites s)
  | .add, _ => (0, 0)
  | .inc, _ => (0, 0)
  | .tteval, _ => (0, 0)

/-- TM with a window filled from one free draw. -/
def scrambleTm (s : State) (window : Nat × Nat) : Memory 2 :=
  s.tm.writeAll window.1 (freeCells (Config.freeTrit s.draws) window.1 window.2)

/-- YM with a window filled from one free draw. -/
def scrambleYm (s : State) (window : Nat × Nat) : Memory 8 :=
  s.ym.writeAll window.1 (freeCells (Config.freeTryte s.draws) window.1 window.2)

/-- Reset while command `i` is in progress: "every cell in that command's write window holds an unspecified value
of its cell format. Every other cell keeps its value" (R184, U8). -/
def abandon (i : Instr) (s : State) : State :=
  (((s.withTm (scrambleTm s (tmWrites i s))).withYm (scrambleYm s (ymWrites i s))).resetRegisters).drawn

end Sys2Proof.Machine
end

