-- ==== Sys2Proof/Machine/Host.lean ====
section
/-! DEFINITION. The host interface (`70_reset_and_hazards.md` R180 to R188, `10_state.md` R20 to R29): what one host
action does to the machine. -/

namespace Sys2Proof.Machine

/-- A host write of `w` to CMD: the command runs to completion before the write does (R58, R70, R187). An illegal
word raises ILLEGAL_OP; "No operand register is read and no memory is accessed" (R161). -/
def command (w : Word) (s : State) : Host.Outcome State Fault Refusal :=
  match decodeWord w with
  | .ok i => exec i s
  | .error _ => .next (raiseFault .illegalOp 0 s)

/-- A 32-bit host write to register `n`: 0 starts a command, 1 to 4 store, "A host write to any other register has
no effect" (R59, R21 to R28). -/
def writeRegister (n : Nat) (w : Word) (s : State) : Host.Outcome State Fault Refusal :=
  match n with
  | 0 => command w s
  | 1 => .next { s with opa := w }
  | 2 => .next { s with opb := w }
  | 3 => .next { s with opc := w }
  | 4 => .next { s with opd := w }
  | _ => .next s

/-- What a 32-bit host read of register `n` returns: CMD reads 0, and so does every number from 8 on
(R20 to R28). -/
def readRegister (n : Nat) (s : State) : Word :=
  match n with
  | 1 => s.opa
  | 2 => s.opb
  | 3 => s.opc
  | 4 => s.opd
  | 5 => s.result
  | 6 => statusRead s.status
  | 7 => s.faddr
  | _ => 0#32

/-- A TM cell takes a value from outside TCORE; a cell that does not exist takes none (R50, log 7). -/
def setTrit (a : Nat) (v : TritCell) (s : State) : Host.Outcome State Fault Refusal :=
  if a < s.tm.size then .next (s.withTm (s.tm.write a v)) else .fault (.noSuchTrit a)

/-- A YM cell takes a value from outside TCORE; a cell that does not exist takes none (R50, log 7). -/
def setTryte (a : Nat) (c : TryteCode) (s : State) : Host.Outcome State Fault Refusal :=
  if a < s.ym.size then .next (s.withYm (s.ym.write a c)) else .fault (.noSuchTryte a)

/-- Reset asserted while the command `w` started is in progress (R184). An illegal word has no write window. -/
def resetDuring (w : Word) (s : State) : State :=
  match decodeWord w with
  | .ok i => abandon i s
  | .error _ => s.resetRegisters.drawn

/-- A command that races on cells which all exist runs to its end (R64, R187); a race on a cell that does not exist is
none (R50, log 7). -/
def racingCommand (w : Word) (tms yms : List Nat) (s : State) : Host.Outcome State Fault Refusal :=
  match firstAbsent s.tm.size tms, firstAbsent s.ym.size yms with
  | some a, _ => .fault (.noSuchTrit a)
  | none, some a => .fault (.noSuchTryte a)
  | none, none => .next (raceDuring w tms yms s)

/-- What one action does. The first five are the table of R186. -/
def perform (act : HostAction) (s : State) : Host.Outcome State Fault Refusal :=
  match act with
  | .writeReg n w => writeRegister n w s
  | .readReg n => .next (s.withRead (readRegister n s))
  | .prepareTrit a v => setTrit a v s
  | .prepareTryte a c => setTryte a c s
  | .reset => .next s.resetRegisters
  | .resetDuringCommand w => .next (resetDuring w s)
  | .narrowAccess n => .refused (.narrowAccess n)
  | .accessDuringCommand => .refused .accessDuringCommand
  | .raceDuringCommand w tms yms => racingCommand w tms yms s
  | .raceTrit a => setTrit a (Config.freeTrit s.draws a) s.drawn
  | .raceTryte a => setTryte a (Config.freeTryte s.draws a) s.drawn

/-- The host's oldest remaining action happens; with none left, TCORE "holds its registers and does nothing else"
(R179, R185, R188). -/
def hostStep (s : State) : Host.Outcome State Fault Refusal :=
  match s.pending with
  | [] => .next s
  | act :: rest => perform act (s.withPending rest)

/-- The action that presents the instruction whose bits are `w`, `nbits` of them, to TCORE: a host write of the word
to CMD (R70). -/
def commandAction (nbits w : Nat) : HostAction := .writeReg 0 (BitVec.ofNat 32 (w % 2 ^ nbits))

end Sys2Proof.Machine
end

