-- ==== Sys2Proof/Machine/Step.lean ====
section
/-! DEFINITION. One step of the machine: the host's oldest remaining action (`70_reset_and_hazards.md` R186, R188).
TCORE fetches nothing itself (`10_state.md` R25), so the "next instruction" is the command the host writes to CMD
next (log 1). -/

namespace Sys2Proof.Machine

/-- One step. -/
def step (s : State) : Host.Outcome State Fault Refusal := hostStep s

/-- `s` with a host about to write the instruction's word to CMD, before anything else it has left to do: the very
next step runs that instruction (R70; log 1). -/
def State.withFetchWord (s : State) (nbits w : Nat) : State :=
  s.withPending (commandAction nbits w :: s.pending)

end Sys2Proof.Machine
end

