-- ==== Sys2Proof/Machine/Pseudocode.lean ====
section
/-! DEFINITION. The loops of the spec's pseudocode, cell by cell and in place, as R101, R105 and R121 write them, and
the loop by which R124 reads the source's increment. The meanings do not call them: they are the reference that the
meanings' window form is stated to agree with (R63; log 10). -/

namespace Sys2Proof.Machine

/-- R101's write pass from tryte `i` on, `k` trytes to go. -/
def decodeLoop (ym : Memory 8) (src dst : Nat) : Nat → Nat → Memory 2 → Memory 2
  | 0, _, tm => tm
  | k + 1, i, tm =>
    decodeLoop ym src dst k (i + 1)
      (((tm.write (dst + 3 * i) (tritCell (tryteRow (alphaIndex (readTryte ym (src + i)))).1)).write
        (dst + 3 * i + 1) (tritCell (tryteRow (alphaIndex (readTryte ym (src + i)))).2.1)).write
        (dst + 3 * i + 2) (tritCell (tryteRow (alphaIndex (readTryte ym (src + i)))).2.2))

/-- The term R105's inner loop adds for trit `j` of the window, with its weight; a missing trit adds 0. -/
def encodeTerm (tm : Memory 2) (src len weight j : Nat) : Int :=
  if j < len then weight * tRead tm (src + j) else 0

/-- The sum v of R105 for group `g`. -/
def encodeSum (tm : Memory 2) (src len g : Nat) : Int :=
  encodeTerm tm src len 1 (3 * g) + encodeTerm tm src len 3 (3 * g + 1) + encodeTerm tm src len 9 (3 * g + 2)

/-- R105's write pass from group `g` on, `k` groups to go. -/
def encodeLoop (tm : Memory 2) (src dst len : Nat) : Nat → Nat → Memory 8 → Memory 8
  | 0, _, ym => ym
  | k + 1, g, ym =>
    encodeLoop tm src dst len k (g + 1)
      (ym.write (dst + g)
        (alphaAt (if encodeSum tm src len g < 0 then encodeSum tm src len g + 27 else encodeSum tm src len g).toNat))

/-- R121's carry chain in place: the next address, how many stages to go, the running carry n. It gives TM and the
residual carry. -/
def addLoop (a : Nat) : Nat → Nat → Memory 2 → Memory 2 × Nat
  | 0, n, tm => (tm, n)
  | k + 1, n, tm =>
    if 1 < tRead tm a + ((n % 3 : Nat) : Int) then
      addLoop (a + 1) k (n / 3 + 1) (tm.write a (tritCell (tRead tm a + ((n % 3 : Nat) : Int) - 3)))
    else
      addLoop (a + 1) k (n / 3) (tm.write a (tritCell (tRead tm a + ((n % 3 : Nat) : Int))))

/-- R124's reading of the source's increment, on the integer values of the cells base .. base + len: "increment
position i", "test overflow", "only then check i < len". The last element is the boundary cell, where no reset
follows, so it may be left at 2. -/
def incReading : List Int → List Int
  | [] => []
  | [t] => [t + 1]
  | t :: u :: rest => if 1 < t + 1 then -1 :: incReading (u :: rest) else (t + 1) :: u :: rest

end Sys2Proof.Machine
end

