-- ==== Sys2Proof/Safety.lean ====
section
/-! DEFINITION. The terms claims are stated in: the invariant of the machine, the conditions under which the spec
says a command completes, and the records a command leaves. -/

namespace Sys2Proof.Machine

/-! ## The invariant -/

/-- A memory is in canonical form and has a size R7 allows. -/
def MemoryOk {w : Nat} (m : Memory w) : Prop :=
  m.wf = true ∧ 1 ≤ m.size ∧ m.size ≤ Config.maxCells

/-- STATUS holds what R24 allows: reserved bits 0, ERR one of the codes 0 to 6, and ERR_ANY set whenever ERR is. -/
def StatusOk (status : Word) : Prop :=
  status.extractLsb' 5 27 = 0#27 ∧ (errField status).toNat ≤ 6 ∧
    (errField status ≠ 0#4 → errAnyBit status = true)

/-- RESULT and FADDR agree with ERR: a faulting command leaves RESULT 0 (R23), and FADDR is a cell of the memory
the cause speaks of, or 0 (R26, R160). -/
def ReportOk (s : State) : Prop :=
  (errField s.status ≠ 0#4 → s.result = 0#32) ∧
  (errField s.status = 4#4 → s.faddr.toNat < s.ym.size) ∧
  (errField s.status = 5#4 ∨ errField s.status = 6#4 → s.faddr.toNat < s.tm.size) ∧
  ((errField s.status).toNat ≤ 3 → s.faddr = 0#32)

/-- What holds between any two host actions. -/
def State.Inv (s : State) : Prop :=
  MemoryOk s.tm ∧ MemoryOk s.ym ∧ StatusOk s.status ∧ ReportOk s

/-! ## What a command leaves in the registers -/

/-- The register record of a fault (R170): RESULT 0, ERR the cause's code, ERR_ANY 1, FADDR the address. Nothing
else differs from `s`. -/
def faultRecord (s : State) (code : BitVec 4) (faddr : Nat) : State :=
  { s with result := 0#32, status := 0#27 ++ 1#1 ++ code, faddr := BitVec.ofNat 32 faddr }

/-- The record of a completion (R171) with the given RESULT and memories: ERR 0, ERR_ANY as it was, FADDR 0. Nothing
else differs from `s`. -/
def completionRecord (s : State) (result : Word) (tm : Memory 2) (ym : Memory 8) : State :=
  { s with
    result := result
    status := 0#27 ++ s.status.extractLsb' 4 1 ++ 0#4
    faddr := 0#32
    tm := tm
    ym := ym }

/-! ## When a command completes -/

/-- A TM cell holds a trit: -1, 0 or 1 (R35). -/
def IsTrit (m : Memory 2) (a : Nat) : Prop := tRead m a = -1 ∨ tRead m a = 0 ∨ tRead m a = 1

/-- The operands and the source window let DECODE complete (R101). -/
def DecodeReady (s : State) (src dst count : Nat) : Prop :=
  s.opa.toInt = src ∧ s.opb.toInt = dst ∧ s.opc.toInt = count ∧
  src + count ≤ s.ym.size ∧ dst + 3 * count ≤ s.tm.size ∧
  ∀ i, i < count → validTryte (readTryte s.ym (src + i)) = true

/-- The operands and the source window let ENCODE complete (R105). -/
def EncodeReady (s : State) (src dst len : Nat) : Prop :=
  s.opa.toInt = src ∧ s.opb.toInt = dst ∧ s.opc.toInt = len ∧
  src + len ≤ s.tm.size ∧ dst + (len + 2) / 3 ≤ s.ym.size ∧
  ∀ j, j < len → IsTrit s.tm (src + j)

/-- The operands and the window let ADD complete (R121). -/
def AddReady (s : State) (base len n : Nat) : Prop :=
  s.opa.toInt = base ∧ s.opc.toInt = len ∧ s.opd.toInt = n ∧
  base + len ≤ s.tm.size ∧ ∀ j, j < len → IsTrit s.tm (base + j)

/-- The operands let INC complete with its chain stopping at cell base + k (R125): every cell below holds 1, and that
cell lies in TM and holds -1 or 0. -/
def IncReady (s : State) (base len k : Nat) : Prop :=
  s.opa.toInt = base ∧ s.opc.toInt = len ∧ base + len ≤ s.tm.size ∧
  k ≤ len ∧ base + k < s.tm.size ∧ (∀ j, j < k → tRead s.tm (base + j) = 1) ∧
  (tRead s.tm (base + k) = -1 ∨ tRead s.tm (base + k) = 0)

/-! ## The terms of the laws -/

/-- (3^n - 1)/2, the largest value of n trits (R122). -/
def topValue (n : Nat) : Int := ((3 : Int) ^ n - 1) / 2

/-- The integer values of the cells base .. base + n - 1, as R124's loop sees them. -/
def cellValues (m : Memory 2) (base n : Nat) : List Int := (tritsAt m base n).map tritValue

/-- The five legal command words (R72). -/
def legalWords : List Word := [0x00000001#32, 0x00000002#32, 0x00000003#32, 0x00000004#32, 0x00000005#32]

/-- A state that has run out of host actions has reached "The end of a host program" (R188); a run is safe when it
gets there without a stop of the model's own. -/
def Outcome.isNext {σ φ ρ : Type} : Host.Outcome σ φ ρ → Bool
  | .next _ => true
  | .fault _ => false
  | .refused _ => false

/-- The host actions of the table of R186, with addresses that exist: those on which a step is safe. -/
def InInterface (s : State) : HostAction → Prop
  | .writeReg _ _ => True
  | .readReg _ => True
  | .prepareTrit a _ => a < s.tm.size
  | .prepareTryte a _ => a < s.ym.size
  | .reset => True
  | .resetDuringCommand _ => True
  | .narrowAccess _ => False
  | .accessDuringCommand => False
  | .raceDuringCommand _ tms yms => (∀ a ∈ tms, a < s.tm.size) ∧ ∀ a ∈ yms, a < s.ym.size
  | .raceTrit a => a < s.tm.size
  | .raceTryte a => a < s.ym.size

end Sys2Proof.Machine
end

