-- ==== Sys2Proof/Certificates/Slice0/Obligations.lean ====
section
/-! DEFINITION. What is claimed of the model, for the provers. Each statement's docstring names the rules of `spec/`
it rests on; `faultRecord` and `completionRecord` (Safety) are R170 and R171, and say that nothing else of the state
changes. -/

open Sys2Proof Sys2Proof.Machine

/-! ## Command words (`30_encoding.md`) -/

/-- R72: the OP values, each with its CMD word; OP 0, 6 and 7 are reserved. -/
def Obligations.OpcodeTableWordsDecode : Prop :=
  decodeWord 0x00000001#32 = .ok .decode ∧ decodeWord 0x00000002#32 = .ok .encode ∧
  decodeWord 0x00000003#32 = .ok .add ∧ decodeWord 0x00000004#32 = .ok .inc ∧
  decodeWord 0x00000005#32 = .ok .tteval ∧
  decodeWord 0x00000000#32 = .error (.reservedOp 0b000#3) ∧
  decodeWord 0x00000006#32 = .error (.reservedOp 0b110#3) ∧
  decodeWord 0x00000007#32 = .error (.reservedOp 0b111#3)

/-- R74: decoding is total, and exactly the five words of R72 are legal, each for its own operation. -/
def Obligations.DecodeAcceptsExactlyFiveWords : Prop :=
  (∀ w : Word, (∃ i, decodeWord w = .ok i) ↔ w ∈ legalWords) ∧
  (∀ (w : Word) (i : Instr), decodeWord w = .ok i ↔ w = encode i)

/-- R70, R72: decoding an encoded instruction gives it back, in the table's numbering of bits too. -/
def Obligations.EncodeThenDecodeGivesInstruction : Prop :=
  ∀ i : Instr, i.wf = true →
    decodeWord (encode i) = .ok i ∧ decodeTableWord 32 (encode i).toNat = some i ∧ encode i ∈ legalWords

/-- R73: a word is illegal exactly when OP is 0, 6 or 7 or RSV is not 0, for the check and for the decoder. -/
def Obligations.LegalityCheckAgreesWithDecoder : Prop :=
  ∀ w : Word,
    (commandWordLegal w = false ↔
      w.extractLsb' 0 3 = 0b000#3 ∨ w.extractLsb' 0 3 = 0b110#3 ∨ w.extractLsb' 0 3 = 0b111#3 ∨
        w.extractLsb' 3 29 ≠ 0#29) ∧
    (commandWordLegal w = false ↔ ∃ e, decodeWord w = .error e)

/-- R161: an illegal word raises Fault(ILLEGAL_OP, 0), whatever the operands and memories hold. The CMD write is the
host's next action, the model's form of it (log 1). -/
def Obligations.IllegalWordFaults : Prop :=
  ∀ (s : State) (w : Word) (rest : List HostAction), s.pending = .writeReg 0 w :: rest →
    (w.extractLsb' 0 3 = 0b000#3 ∨ w.extractLsb' 0 3 = 0b110#3 ∨ w.extractLsb' 0 3 = 0b111#3 ∨
      w.extractLsb' 3 29 ≠ 0#29) →
    step s = .next (faultRecord (s.withPending rest) 1#4 0)

/-! ## Steps and the host interface (`70_reset_and_hazards.md`, `10_state.md`) -/

/-- R70, R187: the step at a CMD write of a word that decodes to i is i's meaning, once the write is taken off the
host's list. This is how every per-instruction statement reaches a run. -/
def Obligations.StepRunsDecodedCommand : Prop :=
  (∀ (s : State) (w : Word) (rest : List HostAction) (i : Instr), s.pending = .writeReg 0 w :: rest →
    decodeWord w = .ok i → i.wf = true → step s = exec i (s.withPending rest)) ∧
  (∀ (s : State) (i : Instr), step (s.withFetchWord 32 (encode i).toNat) = exec i s)

/-- R179, R185: with no host action to come, TCORE holds its state. -/
def Obligations.StepWaitsWithoutHostAction : Prop :=
  ∀ s : State, s.pending = [] → step s = .next s

/-- R186, R187: no interaction of the host's table, at an address that exists, stops the machine; in particular every
CMD write ends, whatever its word. The race actions are the model's form of R64 (log 6). -/
def Obligations.InterfaceActionsNeverStop : Prop :=
  ∀ (s : State) (act : HostAction) (rest : List HostAction), s.pending = act :: rest → InInterface s act →
    ∃ t, step s = .next t ∧ t.pending = rest

/-- R20 to R28: what a host read returns, and that it changes nothing but the model's record of it (log 2). -/
def Obligations.HostReadReturnsRegister : Prop :=
  ∀ (s : State) (n : Nat) (rest : List HostAction), s.pending = .readReg n :: rest →
    ∃ v : Word, step s = .next { s with pending := rest, readData := v :: s.readData } ∧
      (n = 0 → v = 0#32) ∧ (n = 1 → v = s.opa) ∧ (n = 2 → v = s.opb) ∧ (n = 3 → v = s.opc) ∧
      (n = 4 → v = s.opd) ∧ (n = 5 → v = s.result) ∧
      (n = 6 → v.extractLsb' 0 5 = s.status.extractLsb' 0 5 ∧ v.extractLsb' 5 27 = 0#27) ∧
      (n = 7 → v = s.faddr) ∧ (8 ≤ n → v = 0#32)

/-- R22, R59: a host write to OPA..OPD stores the word and nothing else. -/
def Obligations.HostWriteStoresOperand : Prop :=
  ∀ (s : State) (w : Word) (rest : List HostAction),
    (s.pending = .writeReg 1 w :: rest → step s = .next { s with pending := rest, opa := w }) ∧
    (s.pending = .writeReg 2 w :: rest → step s = .next { s with pending := rest, opb := w }) ∧
    (s.pending = .writeReg 3 w :: rest → step s = .next { s with pending := rest, opc := w }) ∧
    (s.pending = .writeReg 4 w :: rest → step s = .next { s with pending := rest, opd := w })

/-- R23, R24, R26, R28: host writes to RESULT, STATUS, FADDR and to register numbers from 8 on are ignored. -/
def Obligations.HostWriteToOtherRegistersIgnored : Prop :=
  ∀ (s : State) (n : Nat) (w : Word) (rest : List HostAction), 5 ≤ n → s.pending = .writeReg n w :: rest →
    step s = .next (s.withPending rest)

/-- R181: the register values after reset; CMD reads 0. -/
def Obligations.ResetRegisterValues : Prop :=
  State.reset.opa = 0#32 ∧ State.reset.opb = 0#32 ∧ State.reset.opc = 0#32 ∧ State.reset.opd = 0#32 ∧
  State.reset.result = 0#32 ∧ State.reset.faddr = 0#32 ∧ State.reset.status = 0x00000000#32 ∧
  errField State.reset.status = 0#4 ∧ errAnyBit State.reset.status = false ∧
  readRegister 0 State.reset = 0x00000000#32

/-- R181, R183: reset asserted between commands gives every register its reset value and writes no memory cell. -/
def Obligations.HostResetKeepsMemories : Prop :=
  ∀ (s : State) (rest : List HostAction), s.pending = .reset :: rest →
    step s = .next { s with
      pending := rest, opa := 0#32, opb := 0#32, opc := 0#32, opd := 0#32, result := 0#32, status := 0#32,
      faddr := 0#32 }

/-- R184: after a reset during a command the registers hold their reset values, the cells of the command's write
window hold free values, and every other cell keeps its value. The cells of the window are `tmWrites`/`ymWrites`; for an
INC on which R125 sets no k, the greatest k that R51 allows is the model's reading (log 5). A word that is no command has
no write window. -/
def Obligations.ResetDuringCommandFreesWriteWindow : Prop :=
  (∀ (s : State) (w : Word) (i : Instr) (rest : List HostAction), s.pending = .resetDuringCommand w :: rest →
    decodeWord w = .ok i →
    ∃ (tm : Memory 2) (ym : Memory 8),
      step s = .next { s with
        pending := rest, opa := 0#32, opb := 0#32, opc := 0#32, opd := 0#32, result := 0#32, status := 0#32,
        faddr := 0#32, tm := tm, ym := ym, draws := s.draws + 1 } ∧
      tm.size = s.tm.size ∧ ym.size = s.ym.size ∧
      (∀ a, readTrit tm a =
        if (tmWrites i s).1 ≤ a ∧ a < (tmWrites i s).1 + (tmWrites i s).2 then Config.freeTrit s.draws a
        else readTrit s.tm a) ∧
      (∀ a, readTryte ym a =
        if (ymWrites i s).1 ≤ a ∧ a < (ymWrites i s).1 + (ymWrites i s).2 then Config.freeTryte s.draws a
        else readTryte s.ym a)) ∧
  (∀ (s : State) (w : Word) (e : DecodeError) (rest : List HostAction),
    s.pending = .resetDuringCommand w :: rest → decodeWord w = .error e →
    step s = .next { s with
      pending := rest, opa := 0#32, opb := 0#32, opc := 0#32, opd := 0#32, result := 0#32, status := 0#32,
      faddr := 0#32, draws := s.draws + 1 })

/-- R51: the write window of each command that can complete, as (first address, number of cells). -/
def Obligations.WriteWindowsOfCompletingCommands : Prop :=
  (∀ (s : State) (src dst count : Nat), DecodeReady s src dst count →
    tmWrites .decode s = (dst, 3 * count) ∧ (ymWrites .decode s).2 = 0) ∧
  (∀ (s : State) (src dst len : Nat), EncodeReady s src dst len →
    ymWrites .encode s = (dst, (len + 2) / 3) ∧ (tmWrites .encode s).2 = 0) ∧
  (∀ (s : State) (base len n : Nat), AddReady s base len n →
    tmWrites .add s = (base, len) ∧ (ymWrites .add s).2 = 0) ∧
  (∀ (s : State) (base len k : Nat), IncReady s base len k →
    tmWrites .inc s = (base, k + 1) ∧ (ymWrites .inc s).2 = 0) ∧
  (∀ s : State, (tmWrites .tteval s).2 = 0 ∧ (ymWrites .tteval s).2 = 0)

/-- R59, R186: a memory preparation stores the cell and changes nothing else. -/
def Obligations.PreparationWritesOneCell : Prop :=
  (∀ (s : State) (a : Nat) (v : TritCell) (rest : List HostAction), s.pending = .prepareTrit a v :: rest →
    a < s.tm.size → ∃ tm : Memory 2, step s = .next { s with pending := rest, tm := tm } ∧ tm.size = s.tm.size ∧
      ∀ b, readTrit tm b = if b = a then v else readTrit s.tm b) ∧
  (∀ (s : State) (a : Nat) (c : TryteCode) (rest : List HostAction), s.pending = .prepareTryte a c :: rest →
    a < s.ym.size → ∃ ym : Memory 8, step s = .next { s with pending := rest, ym := ym } ∧ ym.size = s.ym.size ∧
      ∀ b, readTryte ym b = if b = a then c else readTryte s.ym b)

/-- R50 gives no cell at or above a memory's size: the model stops there by name (log 7). -/
def Obligations.AbsentCellStops : Prop :=
  (∀ (s : State) (a : Nat) (v : TritCell) (rest : List HostAction), s.tm.size ≤ a →
    (s.pending = .prepareTrit a v :: rest ∨ s.pending = .raceTrit a :: rest) → step s = .fault (.noSuchTrit a)) ∧
  (∀ (s : State) (a : Nat) (c : TryteCode) (rest : List HostAction), s.ym.size ≤ a →
    (s.pending = .prepareTryte a c :: rest ∨ s.pending = .raceTryte a :: rest) →
    step s = .fault (.noSuchTryte a)) ∧
  (∀ (s : State) (w : Word) (tms yms : List Nat) (rest : List HostAction),
    s.pending = .raceDuringCommand w tms yms :: rest →
    ((∃ a ∈ tms, s.tm.size ≤ a) → ∃ a ∈ tms, s.tm.size ≤ a ∧ step s = .fault (.noSuchTrit a)) ∧
    ((∀ a ∈ tms, a < s.tm.size) → (∃ a ∈ yms, s.ym.size ≤ a) →
      ∃ a ∈ yms, s.ym.size ≤ a ∧ step s = .fault (.noSuchTryte a)))

/-- R29, R186: narrow accesses and accesses the host's table excludes are refused by name (log 8). -/
def Obligations.ExcludedAccessIsRefused : Prop :=
  (∀ (s : State) (n : Nat) (rest : List HostAction), s.pending = .narrowAccess n :: rest →
    step s = .refused (.narrowAccess n)) ∧
  (∀ (s : State) (rest : List HostAction), s.pending = .accessDuringCommand :: rest →
    step s = .refused .accessDuringCommand)

/-- R64, R192: a cell that other agents race on while no command of this instance reaches it holds a free value; no other
cell and no register changes (log 6). -/
def Obligations.RacedCellHoldsFreeValue : Prop :=
  (∀ (s : State) (a : Nat) (rest : List HostAction), s.pending = .raceTrit a :: rest → a < s.tm.size →
    ∃ tm : Memory 2, step s = .next { s with pending := rest, tm := tm, draws := s.draws + 1 } ∧
      tm.size = s.tm.size ∧
      ∀ b, readTrit tm b = if b = a then Config.freeTrit s.draws a else readTrit s.tm b) ∧
  (∀ (s : State) (a : Nat) (rest : List HostAction), s.pending = .raceTryte a :: rest → a < s.ym.size →
    ∃ ym : Memory 8, step s = .next { s with pending := rest, ym := ym, draws := s.draws + 1 } ∧
      ym.size = s.ym.size ∧
      ∀ b, readTryte ym b = if b = a then Config.freeTryte s.draws a else readTryte s.ym b)

/-! ## DECODE (`41_codec.md`) -/

/-- R101, R102: DECODE completes on valid operands and codes, writes the triplet of each tryte in its place, and
changes nothing else but STATUS, FADDR and RESULT as R171 and R23 say. -/
def Obligations.DecodeCompletes : Prop :=
  ∀ (s : State) (src dst count : Nat), DecodeReady s src dst count →
    ∃ tm : Memory 2, exec .decode s = .next (completionRecord s 0#32 tm s.ym) ∧ tm.size = s.tm.size ∧
      (∀ i, i < count →
        tRead tm (dst + 3 * i) = (tryteRow (alphaIndex (readTryte s.ym (src + i)))).1 ∧
        tRead tm (dst + 3 * i + 1) = (tryteRow (alphaIndex (readTryte s.ym (src + i)))).2.1 ∧
        tRead tm (dst + 3 * i + 2) = (tryteRow (alphaIndex (readTryte s.ym (src + i)))).2.2) ∧
      (∀ a, a < dst ∨ dst + 3 * count ≤ a → readTrit tm a = readTrit s.tm a)

/-- R101, R162 to R164, R167: DECODE's checks in priority order, each with its cause and FADDR. -/
def Obligations.DecodeFaultsByPriority : Prop :=
  ∀ s : State,
    ((s.opa.toInt < 0 ∨ s.opb.toInt < 0 ∨ s.opc.toInt < 0) → exec .decode s = .next (faultRecord s 2#4 0)) ∧
    (∀ src dst count : Nat, s.opa.toInt = src → s.opb.toInt = dst → s.opc.toInt = count →
      ((s.ym.size < src + count ∨ s.tm.size < dst + 3 * count) → exec .decode s = .next (faultRecord s 3#4 0)) ∧
      (src + count ≤ s.ym.size → dst + 3 * count ≤ s.tm.size → ∀ i, i < count →
        validTryte (readTryte s.ym (src + i)) = false →
        (∀ j, j < i → validTryte (readTryte s.ym (src + j)) = true) →
        exec .decode s = .next (faultRecord s 4#4 (src + i))))

/-- R102: DECODE writes only its destination window, on every path. -/
def Obligations.DecodeWritesOnlyDestination : Prop :=
  ∀ s t : State, exec .decode s = .next t →
    (∀ a, readTryte t.ym a = readTryte s.ym a) ∧
    (∀ a, (∀ dst count : Nat, s.opb.toInt = dst → s.opc.toInt = count → a < dst ∨ dst + 3 * count ≤ a) →
      readTrit t.tm a = readTrit s.tm a)

/-- R63, R101: on valid input DECODE is the pseudocode's write pass, cell by cell. -/
def Obligations.DecodeRunsPseudocodeLoop : Prop :=
  ∀ (s : State) (src dst count : Nat), DecodeReady s src dst count →
    exec .decode s = .next (completionRecord s 0#32 (decodeLoop s.ym src dst count 0 s.tm) s.ym)

/-! ## ENCODE (`41_codec.md`) -/

/-- R105, R107: ENCODE completes on valid operands and trits, writes the character of each group, the last possibly
partial, and changes nothing else but STATUS, FADDR and RESULT as R171 and R23 say. -/
def Obligations.EncodeCompletes : Prop :=
  ∀ (s : State) (src dst len : Nat), EncodeReady s src dst len →
    ∃ ym : Memory 8, exec .encode s = .next (completionRecord s 0#32 s.tm ym) ∧ ym.size = s.ym.size ∧
      (∀ g, g < (len + 2) / 3 →
        readTryte ym (dst + g) =
          alphaAt (if encodeSum s.tm src len g < 0 then encodeSum s.tm src len g + 27
            else encodeSum s.tm src len g).toNat) ∧
      (∀ a, a < dst ∨ dst + (len + 2) / 3 ≤ a → readTryte ym a = readTryte s.ym a)

/-- R105, R162, R163, R165, R167: ENCODE's checks in priority order. -/
def Obligations.EncodeFaultsByPriority : Prop :=
  ∀ s : State,
    ((s.opa.toInt < 0 ∨ s.opb.toInt < 0 ∨ s.opc.toInt < 0) → exec .encode s = .next (faultRecord s 2#4 0)) ∧
    (∀ src dst len : Nat, s.opa.toInt = src → s.opb.toInt = dst → s.opc.toInt = len →
      ((s.tm.size < src + len ∨ s.ym.size < dst + (len + 2) / 3) →
        exec .encode s = .next (faultRecord s 3#4 0)) ∧
      (src + len ≤ s.tm.size → dst + (len + 2) / 3 ≤ s.ym.size → ∀ j, j < len →
        tRead s.tm (src + j) = -2 → (∀ l, l < j → tRead s.tm (src + l) ≠ -2) →
        exec .encode s = .next (faultRecord s 5#4 (src + j))))

/-- R106: a group's sum lies in [-13, 13], its alphabet index below 27, and the character written is the one whose
tryte-ROM row is the group's triplet with missing trits taken as 0. -/
def Obligations.EncodeIndexInRange : Prop :=
  ∀ (m : Memory 2) (src len g : Nat), (∀ j, j < len → IsTrit m (src + j)) → g < (len + 2) / 3 →
    -13 ≤ encodeSum m src len g ∧ encodeSum m src len g ≤ 13 ∧
    alphabetIndexOfValue (encodeSum m src len g) < 27 ∧
    tryteRow (alphaIndex (alphaAt (alphabetIndexOfValue (encodeSum m src len g)))) =
      (encodeTerm m src len 1 (3 * g), encodeTerm m src len 1 (3 * g + 1), encodeTerm m src len 1 (3 * g + 2))

/-- R63, R105: on valid input ENCODE is the pseudocode's write pass, cell by cell. -/
def Obligations.EncodeRunsPseudocodeLoop : Prop :=
  ∀ (s : State) (src dst len : Nat), EncodeReady s src dst len →
    exec .encode s = .next (completionRecord s 0#32 s.tm (encodeLoop s.tm src dst len ((len + 2) / 3) 0 s.ym))

/-- R36: after any command each YM cell holds what it held before or one of the 27 valid codes. -/
def Obligations.CommandsWriteOnlyValidCodes : Prop :=
  ∀ (i : Instr) (s t : State) (a : Nat), exec i s = .next t →
    readTryte t.ym a = readTryte s.ym a ∨ validTryte (readTryte t.ym a) = true

/-! ## Laws of the codec -/

/-- R108: `DECODE src, d, count` and then `ENCODE d, e, 3·count`, as the host runs them, give the codes
back. The host's actions stand in `pending` (log 1), and the windows lie in the memories, so that no check fails. -/
def Obligations.TryteRoundTrip : Prop :=
  ∀ (s : State) (src d e count : Nat),
    s.pending = expandProgram [.decode src d count, .encode d e (3 * count : Nat)] →
    s.tm.size ≤ Config.maxCells → s.ym.size ≤ Config.maxCells →
    src + count ≤ s.ym.size → d + 3 * count ≤ s.tm.size → e + count ≤ s.ym.size →
    (∀ i, i < count → validTryte (readTryte s.ym (src + i)) = true) →
    ∃ t, Sys2Proof.core.run 8 s = .next t ∧ t.pending = [] ∧ errField t.status = 0#4 ∧
      ∀ i, i < count → readTryte t.ym (e + i) = readTryte s.ym (src + i)

/-- R109: `ENCODE b, e, len` and then `DECODE e, d, ceil(len/3)` give the trits back, and 0 in the padding of a
partial final group. The host's actions stand in `pending` (log 1), and the windows lie in the memories. -/
def Obligations.TritRoundTrip : Prop :=
  ∀ (s : State) (b e d len : Nat),
    s.pending = expandProgram [.encode b e len, .decode e d ((len + 2) / 3 : Nat)] →
    s.tm.size ≤ Config.maxCells → s.ym.size ≤ Config.maxCells →
    b + len ≤ s.tm.size → e + (len + 2) / 3 ≤ s.ym.size → d + 3 * ((len + 2) / 3) ≤ s.tm.size →
    (∀ j, j < len → IsTrit s.tm (b + j)) →
    ∃ t, Sys2Proof.core.run 8 s = .next t ∧ t.pending = [] ∧ errField t.status = 0#4 ∧
      (∀ j, j < len → tRead t.tm (d + j) = tRead s.tm (b + j)) ∧
      (∀ j, len ≤ j → j < 3 * ((len + 2) / 3) → tRead t.tm (d + j) = 0)

/-! ## ADD (`42_arith.md`) -/

/-- R121, R122: ADD completes on valid operands and trits; with V the window's value, V' the value after, c the
residual carry and h = (3^len - 1)/2: V' + c·3^len = V + n, every written cell is a trit, c = floor((V + n + h)/3^len),
and nothing else changes but STATUS and FADDR. -/
def Obligations.AddCompletesWithBalancedSum : Prop :=
  ∀ (s : State) (base len n : Nat), AddReady s base len n →
    ∃ (tm : Memory 2) (c : Nat), exec .add s = .next (completionRecord s (BitVec.ofNat 32 c) tm s.ym) ∧
      tm.size = s.tm.size ∧ c ≤ n ∧
      windowValue tm base len + c * 3 ^ len = windowValue s.tm base len + n ∧
      (∀ j, j < len → IsTrit tm (base + j)) ∧
      -topValue len ≤ windowValue tm base len ∧ windowValue tm base len ≤ topValue len ∧
      (c : Int) = (windowValue s.tm base len + n + topValue len) / 3 ^ len ∧
      (∀ a, a < base ∨ base + len ≤ a → readTrit tm a = readTrit s.tm a)

/-- R121, R162, R163, R165, R167: ADD's checks in priority order. -/
def Obligations.AddFaultsByPriority : Prop :=
  ∀ s : State,
    ((s.opa.toInt < 0 ∨ s.opc.toInt < 0 ∨ s.opd.toInt < 0) → exec .add s = .next (faultRecord s 2#4 0)) ∧
    (∀ base len n : Nat, s.opa.toInt = base → s.opc.toInt = len → s.opd.toInt = n →
      (s.tm.size < base + len → exec .add s = .next (faultRecord s 3#4 0)) ∧
      (base + len ≤ s.tm.size → ∀ j, j < len → tRead s.tm (base + j) = -2 →
        (∀ l, l < j → tRead s.tm (base + l) ≠ -2) → exec .add s = .next (faultRecord s 5#4 (base + j))))

/-- R63, R121: on valid input ADD is the pseudocode's carry chain, in place and cell by cell. -/
def Obligations.AddRunsPseudocodeLoop : Prop :=
  ∀ (s : State) (base len n : Nat), AddReady s base len n →
    exec .add s =
      .next (completionRecord s (word32 (addLoop base len n s.tm).2) (addLoop base len n s.tm).1 s.ym)

/-- R123: with n = 0 no trit changes and RESULT is 0; with len = 0 no cell changes and RESULT is n; and RESULT never has
bit 31 set. -/
def Obligations.AddCornerCases : Prop :=
  (∀ (s : State) (base len : Nat), AddReady s base len 0 →
    ∃ tm : Memory 2, exec .add s = .next (completionRecord s 0#32 tm s.ym) ∧
      ∀ a, readTrit tm a = readTrit s.tm a) ∧
  (∀ (s : State) (base n : Nat), AddReady s base 0 n →
    exec .add s = .next (completionRecord s (BitVec.ofNat 32 n) s.tm s.ym)) ∧
  (∀ s t : State, exec .add s = .next t → t.result.msb = false)

/-! ## INC (`42_arith.md`) -/

/-- R125: INC completes where its chain stops at a cell holding -1 or 0: every cell below becomes -1, that cell grows
by one, and nothing else changes but STATUS, FADDR and RESULT as R171 and R23 say. -/
def Obligations.IncCompletes : Prop :=
  ∀ (s : State) (base len k : Nat), IncReady s base len k →
    ∃ tm : Memory 2, exec .inc s = .next (completionRecord s 0#32 tm s.ym) ∧ tm.size = s.tm.size ∧
      (∀ j, j < k → tRead tm (base + j) = -1) ∧
      tRead tm (base + k) = tRead s.tm (base + k) + 1 ∧
      (∀ a, a < base ∨ base + k < a → readTrit tm a = readTrit s.tm a)

/-- R125, R162, R163, R165, R166, R167: INC's checks in priority order; the window's BOUNDS comes before the chain, and
at the chain's end come BOUNDS of the boundary cell, INVALID_TRIT, INC_OVERFLOW. -/
def Obligations.IncFaultsByPriority : Prop :=
  ∀ s : State,
    ((s.opa.toInt < 0 ∨ s.opc.toInt < 0) → exec .inc s = .next (faultRecord s 2#4 0)) ∧
    (∀ base len : Nat, s.opa.toInt = base → s.opc.toInt = len →
      (s.tm.size < base + len → exec .inc s = .next (faultRecord s 3#4 0)) ∧
      (base + len = s.tm.size → (∀ j, j < len → tRead s.tm (base + j) = 1) →
        exec .inc s = .next (faultRecord s 3#4 0)) ∧
      (base + len ≤ s.tm.size → ∀ k, k ≤ len → base + k < s.tm.size →
        (∀ j, j < k → tRead s.tm (base + j) = 1) →
        (tRead s.tm (base + k) = -2 → exec .inc s = .next (faultRecord s 5#4 (base + k))) ∧
        (k = len → tRead s.tm (base + k) = 1 → exec .inc s = .next (faultRecord s 6#4 (base + len)))))

/-- R126: over the window and its boundary cell INC adds 1; it overflows exactly when all len + 1 cells are at the top;
and on the window alone it either adds 1 or turns a full window over into the boundary cell. -/
def Obligations.IncLaw : Prop :=
  ∀ (s t : State) (base len : Nat), s.opa.toInt = base → s.opc.toInt = len → base + len < s.tm.size →
    exec .inc s = .next t →
    (errField t.status = 6#4 ↔ windowValue s.tm base (len + 1) = topValue (len + 1)) ∧
    (errField t.status = 0#4 →
      windowValue t.tm base (len + 1) = windowValue s.tm base (len + 1) + 1 ∧
      (∀ a, a < base ∨ base + len < a → readTrit t.tm a = readTrit s.tm a) ∧
      (windowValue s.tm base len < topValue len →
        windowValue t.tm base len = windowValue s.tm base len + 1 ∧
        readTrit t.tm (base + len) = readTrit s.tm (base + len)) ∧
      (windowValue s.tm base len = topValue len →
        (∀ j, j < len → tRead t.tm (base + j) = -1) ∧
        tRead t.tm (base + len) = tRead s.tm (base + len) + 1))

/-- R124, R125: wherever the reading of the source's loop leaves only trits, INC writes the same cells and values; where
it would leave 2 in the boundary cell, INC faults with INC_OVERFLOW. -/
def Obligations.IncAgreesWithSourceLoop : Prop :=
  ∀ (s : State) (base len : Nat), s.opa.toInt = base → s.opc.toInt = len → base + len < s.tm.size →
    (∀ j, j ≤ len → IsTrit s.tm (base + j)) →
    (2 ∉ incReading (cellValues s.tm base (len + 1)) →
      ∃ tm : Memory 2, exec .inc s = .next (completionRecord s 0#32 tm s.ym) ∧
        cellValues tm base (len + 1) = incReading (cellValues s.tm base (len + 1)) ∧
        ∀ a, a < base ∨ base + len < a → readTrit tm a = readTrit s.tm a) ∧
    (2 ∈ incReading (cellValues s.tm base (len + 1)) →
      exec .inc s = .next (faultRecord s 6#4 (base + len)))

/-- R127: INC and `ADD base, len, 1` agree except when the whole window is 1; there ADD gives carry 1 and leaves the
boundary cell, and INC increments it. -/
def Obligations.IncAgreesWithAddOneBelowTop : Prop :=
  ∀ (s ta ti : State) (base len : Nat), AddReady s base len 1 →
    exec .add s = .next ta → exec .inc s = .next ti →
    (windowValue s.tm base len < topValue len →
      ta.result = 0#32 ∧ errField ti.status = 0#4 ∧ ∀ a, readTrit ti.tm a = readTrit ta.tm a) ∧
    (windowValue s.tm base len = topValue len →
      ta.result = 1#32 ∧ readTrit ta.tm (base + len) = readTrit s.tm (base + len) ∧
      (errField ti.status = 0#4 → tRead ti.tm (base + len) = tRead s.tm (base + len) + 1))

/-! ## TTEVAL (`43_truth_table.md`) -/

/-- R140, R141, R148: TTEVAL completes on inputs in {-1, 0, 1}; RESULT is the value table's entry and nothing else
changes but STATUS and FADDR. -/
def Obligations.TtevalCompletes : Prop :=
  ∀ (s : State) (x1 x2 : Int), s.opa.toInt = x1 → s.opb.toInt = x2 →
    (x1 = -1 ∨ x1 = 0 ∨ x1 = 1) → (x2 = -1 ∨ x2 = 0 ∨ x2 = 1) →
    exec .tteval s = .next (completionRecord s (word32 (truthTable x1 x2)) s.tm s.ym)

/-- R147, R162: an input outside {-1, 0, 1} faults with INVALID_OPERAND. -/
def Obligations.TtevalFaultsOutsideDomain : Prop :=
  ∀ s : State,
    ((s.opa.toInt ≠ -1 ∧ s.opa.toInt ≠ 0 ∧ s.opa.toInt ≠ 1) ∨
      (s.opb.toInt ≠ -1 ∧ s.opb.toInt ≠ 0 ∧ s.opb.toInt ≠ 1)) →
    exec .tteval s = .next (faultRecord s 2#4 0)

/-- R140: the nine rows of the value table, and the words RESULT takes for them (R23). -/
def Obligations.TruthTableRows : Prop :=
  truthTable (-1) (-1) = 1 ∧ truthTable 0 (-1) = 1 ∧ truthTable 1 (-1) = -1 ∧
  truthTable (-1) 0 = 0 ∧ truthTable 0 0 = -1 ∧ truthTable 1 0 = 1 ∧
  truthTable (-1) 1 = -1 ∧ truthTable 0 1 = 0 ∧ truthTable 1 1 = 0 ∧
  word32 (-1) = 0xFFFFFFFF#32 ∧ word32 0 = 0x00000000#32 ∧ word32 1 = 0x00000001#32

/-- R142, R146, R149: the gate network, the ROM mux at index 4·x1 + x2 + 5 and the value table agree on the nine inputs;
ROM entries 3 and 7 are never selected. -/
def Obligations.TruthTableFormsAgree : Prop :=
  ∀ x1 x2 : Int, (x1 = -1 ∨ x1 = 0 ∨ x1 = 1) → (x2 = -1 ∨ x2 = 0 ∨ x2 = 1) →
    gateNetwork x1 x2 = truthTable x1 x2 ∧ romMux x1 x2 = truthTable x1 x2 ∧
    0 ≤ 4 * x1 + x2 + 5 ∧ 4 * x1 + x2 + 5 ≤ 10 ∧ 4 * x1 + x2 + 5 ≠ 3 ∧ 4 * x1 + x2 + 5 ≠ 7

/-! ## The ROMs (`10_state.md`) -/

/-- R31, R32: row i holds trits and has balanced value i, or i - 27 from 14 on; every triplet is some row's, and of one
row only. -/
def Obligations.TryteRomIsBijection : Prop :=
  tryteRom.length = 27 ∧
  (∀ i, i < 27 →
    (tryteRow i).1 + 3 * (tryteRow i).2.1 + 9 * (tryteRow i).2.2 =
      if i ≤ 13 then (i : Int) else (i : Int) - 27) ∧
  (∀ a b c : Int, (a = -1 ∨ a = 0 ∨ a = 1) → (b = -1 ∨ b = 0 ∨ b = 1) → (c = -1 ∨ c = 0 ∨ c = 1) →
    ∃ i, i < 27 ∧ tryteRow i = (a, b, c) ∧ ∀ j, j < 27 → tryteRow j = (a, b, c) → j = i)

/-- R30, R36, R37: the valid codes are exactly the 27 of ALPHA, and for every valid code, ALPHA[idx(c)] = c. -/
def Obligations.AlphabetIndexInvertsRom : Prop :=
  alphaRom.length = 27 ∧
  (∀ c : TryteCode, validTryte c = true ↔ c ∈ alphaRom) ∧
  (∀ c : TryteCode, validTryte c = true → alphaIndex c < 27 ∧ alphaAt (alphaIndex c) = c) ∧
  (∀ i, i < 27 → alphaIndex (alphaAt i) = i)

/-! ## Rules over all commands (`20_memory.md`, `60_exceptions.md`, `10_state.md`) -/

/-- R51: which memory ENCODE, ADD, INC and TTEVAL may write, and where, on every path (DECODE: R102 above). -/
def Obligations.CommandsWriteOnlyTheirWindows : Prop :=
  (∀ s t : State, exec .encode s = .next t →
    (∀ a, readTrit t.tm a = readTrit s.tm a) ∧
    (∀ a, (∀ dst len : Nat, s.opb.toInt = dst → s.opc.toInt = len → a < dst ∨ dst + (len + 2) / 3 ≤ a) →
      readTryte t.ym a = readTryte s.ym a)) ∧
  (∀ s t : State, exec .add s = .next t →
    (∀ a, readTryte t.ym a = readTryte s.ym a) ∧
    (∀ a, (∀ base len : Nat, s.opa.toInt = base → s.opc.toInt = len → a < base ∨ base + len ≤ a) →
      readTrit t.tm a = readTrit s.tm a)) ∧
  (∀ s t : State, exec .inc s = .next t →
    (∀ a, readTryte t.ym a = readTryte s.ym a) ∧
    (∀ a, (∀ base len : Nat, s.opa.toInt = base → s.opc.toInt = len → a < base ∨ base + len < a) →
      readTrit t.tm a = readTrit s.tm a)) ∧
  (∀ s t : State, exec .tteval s = .next t →
    (∀ a, readTrit t.tm a = readTrit s.tm a) ∧ (∀ a, readTryte t.ym a = readTryte s.ym a))

/-- R169 to R171: a CMD write either leaves exactly the register record of one fault, with the memories and operands as
they were, or the completion record. -/
def Obligations.FaultsArePrecise : Prop :=
  ∀ (s t : State) (w : Word) (rest : List HostAction), s.pending = .writeReg 0 w :: rest → step s = .next t →
    (errField t.status ≠ 0#4 →
      ∃ faddr : Nat, t = faultRecord (s.withPending rest) (errField t.status) faddr) ∧
    (errField t.status = 0#4 →
      ∃ (r : Word) (tm : Memory 2) (ym : Memory 8), t = completionRecord (s.withPending rest) r tm ym)

/-- R24: ERR_ANY is set by every faulting command and "Only reset clears it". -/
def Obligations.ErrAnyClearedOnlyByReset : Prop :=
  (∀ (s t : State) (act : HostAction) (rest : List HostAction), s.pending = act :: rest → step s = .next t →
    act ≠ .reset → (∀ w, act ≠ .resetDuringCommand w) → errAnyBit s.status = true → errAnyBit t.status = true) ∧
  (∀ (s t : State) (w : Word) (rest : List HostAction), s.pending = .writeReg 0 w :: rest → step s = .next t →
    errAnyBit t.status = (errAnyBit s.status || decide (errField t.status ≠ 0#4)))

/-- R35: no command writes the invalid trit code: where it stands after a command, it stood before. -/
def Obligations.NoCommandWritesInvalidTrit : Prop :=
  ∀ (i : Instr) (s t : State) (a : Nat), exec i s = .next t → tRead t.tm a = -2 → tRead s.tm a = -2

/-- R22, R76: an operand register that an operation ignores has no influence on it, and the operation leaves it. -/
def Obligations.IgnoredOperandsDoNotMatter : Prop :=
  ∀ (s t : State) (w : Word),
    (exec .decode s = .next t → exec .decode { s with opd := w } = .next { t with opd := w }) ∧
    (exec .encode s = .next t → exec .encode { s with opd := w } = .next { t with opd := w }) ∧
    (exec .add s = .next t → exec .add { s with opb := w } = .next { t with opb := w }) ∧
    (exec .inc s = .next t → exec .inc { s with opb := w } = .next { t with opb := w }) ∧
    (exec .inc s = .next t → exec .inc { s with opd := w } = .next { t with opd := w }) ∧
    (exec .tteval s = .next t → exec .tteval { s with opc := w } = .next { t with opc := w }) ∧
    (exec .tteval s = .next t → exec .tteval { s with opd := w } = .next { t with opd := w })

/-- R3: no operation reads what an earlier one left in RESULT, FADDR or ERR. -/
def Obligations.EarlierReportsDoNotMatter : Prop :=
  ∀ (i : Instr) (s : State) (r f : Word) (c : Cause),
    exec i { s with result := r, faddr := f, status := statusWord (errAnyBit s.status) c } = exec i s

/-- R62: commands run one after another in issue order: what the host does later has no influence on what came
before. -/
def Obligations.LaterActionsDoNotAffectEarlier : Prop :=
  ∀ (first later : List HostAction) (s t : State),
    Sys2Proof.core.run first.length (s.withPending (first ++ later)) = .next t →
    t.pending = later ∧ Sys2Proof.core.run first.length (s.withPending first) = .next (t.withPending [])

/-- R79: an assembler line stores the operands it names, in their registers, and then runs its command; registers it does
not name keep their values. -/
def Obligations.AssemblerLinesRun : Prop :=
  ∀ (s : State) (x y z : Int),
    Sys2Proof.core.run 4 (s.withPending (expandLine (.decode x y z))) =
      exec .decode { s with pending := [], opa := word32 x, opb := word32 y, opc := word32 z } ∧
    Sys2Proof.core.run 4 (s.withPending (expandLine (.encode x y z))) =
      exec .encode { s with pending := [], opa := word32 x, opb := word32 y, opc := word32 z } ∧
    Sys2Proof.core.run 4 (s.withPending (expandLine (.add x y z))) =
      exec .add { s with pending := [], opa := word32 x, opc := word32 y, opd := word32 z } ∧
    Sys2Proof.core.run 3 (s.withPending (expandLine (.inc x y))) =
      exec .inc { s with pending := [], opa := word32 x, opc := word32 y } ∧
    Sys2Proof.core.run 3 (s.withPending (expandLine (.tteval x y))) =
      exec .tteval { s with pending := [], opa := word32 x, opb := word32 y }

/-! ## The invariant -/

/-- R7, R24, R181: the machine right after reset meets the invariant. Its memories list no cell (log 4) and their sizes
are any that R7 allows (log 3). -/
def Obligations.ResetMeetsInvariant : Prop := State.reset.Inv

/-- From every state that meets the invariant, every step leads to one that does: the memories keep their canonical form
and their size, STATUS holds only what R24 allows, and RESULT and FADDR agree with ERR (R23, R26, R160). -/
def Obligations.StepKeepsInvariant : Prop :=
  ∀ s t : State, s.Inv → step s = .next t →
    t.Inv ∧ t.tm.size = s.tm.size ∧ t.ym.size = s.ym.size

/-! ## Commands in a race (`20_memory.md` R64; the form of a race is log 6) -/

/-- R64: while a command runs, each of its two passes sees a free value, of a draw of its own, in every cell that other
agents race on, and the value at the start of the command in every other cell. -/
def Obligations.RacedPassesSeeFreeValues : Prop :=
  ∀ (s : State) (pass : Nat) (raced : List Nat) (a : Nat),
    readTrit (tmSeen pass raced s) a =
      (if a ∈ raced then Config.freeTrit (s.draws + pass) a else readTrit s.tm a) ∧
    readTryte (ymSeen pass raced s) a =
      (if a ∈ raced then Config.freeTryte (s.draws + pass) a else readTryte s.ym a)

/-- R64: where no cell is raced on, the outcome is that of the command alone; only the model's count of draws differs. -/
def Obligations.RaceOnNoCellIsTheCommand : Prop :=
  ∀ (s : State) (w : Word) (rest : List HostAction), s.pending = .raceDuringCommand w [] [] :: rest →
    ∃ t, step (s.withPending (.writeReg 0 w :: rest)) = .next t ∧ step s = .next { t with draws := t.draws + 3 }

/-- R64, R51, R35, R36: a racing command ends; every raced cell then holds a free value, every cell neither raced on nor in
the command's write window keeps its value, no operand changes, and no unraced cell has newly got the invalid trit code or
an invalid tryte code. -/
def Obligations.RacedCellsEndFree : Prop :=
  ∀ (s : State) (w : Word) (tms yms : List Nat) (rest : List HostAction),
    s.pending = .raceDuringCommand w tms yms :: rest →
    (∀ a ∈ tms, a < s.tm.size) → (∀ a ∈ yms, a < s.ym.size) →
    ∃ t, step s = .next t ∧ t.pending = rest ∧ t.readData = s.readData ∧ t.draws = s.draws + 3 ∧
      t.opa = s.opa ∧ t.opb = s.opb ∧ t.opc = s.opc ∧ t.opd = s.opd ∧
      t.tm.size = s.tm.size ∧ t.ym.size = s.ym.size ∧
      (∀ a ∈ tms, readTrit t.tm a = Config.freeTrit (s.draws + 2) a) ∧
      (∀ a ∈ yms, readTryte t.ym a = Config.freeTryte (s.draws + 2) a) ∧
      (∀ a, a ∉ tms →
        (decodeWord w = .ok .decode → (a : Int) < s.opb.toInt ∨ s.opb.toInt + 3 * s.opc.toInt ≤ a) →
        (decodeWord w = .ok .add → (a : Int) < s.opa.toInt ∨ s.opa.toInt + s.opc.toInt ≤ a) →
        (decodeWord w = .ok .inc → (a : Int) < s.opa.toInt ∨ s.opa.toInt + s.opc.toInt < a) →
        readTrit t.tm a = readTrit s.tm a) ∧
      (∀ a, a ∉ yms →
        (decodeWord w = .ok .encode → (a : Int) < s.opb.toInt ∨ s.opb.toInt + (s.opc.toInt + 2) / 3 ≤ a) →
        readTryte t.ym a = readTryte s.ym a) ∧
      (∀ a, a ∉ tms → tRead t.tm a = -2 → tRead s.tm a = -2) ∧
      (∀ a, a ∉ yms → readTryte t.ym a = readTryte s.ym a ∨ validTryte (readTryte t.ym a) = true)

/-- R64, R101, R35: a racing DECODE checks what its first pass sees and looks up what its second pass sees. Where the
second pass sees a code outside the alphabet, the spec states no row, and the triplet written is that of a free row
(log 18). -/
def Obligations.RacingDecodeReadsTwice : Prop :=
  ∀ (s : State) (tms yms : List Nat) (rest : List HostAction) (src dst count : Nat),
    s.pending = .raceDuringCommand 0x00000001#32 tms yms :: rest →
    (∀ a ∈ tms, a < s.tm.size) → (∀ a ∈ yms, a < s.ym.size) →
    s.opa.toInt = src → s.opb.toInt = dst → s.opc.toInt = count →
    src + count ≤ s.ym.size → dst + 3 * count ≤ s.tm.size →
    ∃ t, step s = .next t ∧ t.result = 0#32 ∧
      ((∃ i, i < count ∧ validTryte (readTryte (ymSeen 0 yms s) (src + i)) = false ∧
          (∀ j, j < i → validTryte (readTryte (ymSeen 0 yms s) (src + j)) = true) ∧
          t.status = 0#27 ++ 1#1 ++ 4#4 ∧ t.faddr = BitVec.ofNat 32 (src + i) ∧
          ∀ a, a ∉ tms → readTrit t.tm a = readTrit s.tm a) ∨
        ((∀ i, i < count → validTryte (readTryte (ymSeen 0 yms s) (src + i)) = true) ∧
          t.status = 0#27 ++ s.status.extractLsb' 4 1 ++ 0#4 ∧ t.faddr = 0#32 ∧
          ∀ i, i < count → ∃ row : Nat, row < 27 ∧
            (validTryte (readTryte (ymSeen 1 yms s) (src + i)) = true →
              row = alphaIndex (readTryte (ymSeen 1 yms s) (src + i))) ∧
            (validTryte (readTryte (ymSeen 1 yms s) (src + i)) = false →
              row = (Config.freeRow (s.draws + 1) (src + i)).val) ∧
            (dst + 3 * i ∉ tms → tRead t.tm (dst + 3 * i) = (tryteRow row).1) ∧
            (dst + 3 * i + 1 ∉ tms → tRead t.tm (dst + 3 * i + 1) = (tryteRow row).2.1) ∧
            (dst + 3 * i + 2 ∉ tms → tRead t.tm (dst + 3 * i + 2) = (tryteRow row).2.2)))

/-- R64, R105, R121, R125: a racing ENCODE and a racing ADD check what their first pass sees and compute with what their
second pass sees; a racing INC runs its chain on the one and increments the trit that the other sees. Raced cells hold
free values afterwards (RacedCellsEndFree). -/
def Obligations.RacingTritReadersReadTwice : Prop :=
  (∀ (s : State) (tms yms : List Nat) (rest : List HostAction) (src dst len : Nat),
    s.pending = .raceDuringCommand 0x00000002#32 tms yms :: rest →
    (∀ a ∈ tms, a < s.tm.size) → (∀ a ∈ yms, a < s.ym.size) →
    s.opa.toInt = src → s.opb.toInt = dst → s.opc.toInt = len →
    src + len ≤ s.tm.size → dst + (len + 2) / 3 ≤ s.ym.size →
    ∃ t, step s = .next t ∧ t.result = 0#32 ∧
      ((∃ j, j < len ∧ tRead (tmSeen 0 tms s) (src + j) = -2 ∧
          (∀ l, l < j → tRead (tmSeen 0 tms s) (src + l) ≠ -2) ∧
          t.status = 0#27 ++ 1#1 ++ 5#4 ∧ t.faddr = BitVec.ofNat 32 (src + j) ∧
          ∀ a, a ∉ yms → readTryte t.ym a = readTryte s.ym a) ∨
        ((∀ j, j < len → tRead (tmSeen 0 tms s) (src + j) ≠ -2) ∧
          t.status = 0#27 ++ s.status.extractLsb' 4 1 ++ 0#4 ∧ t.faddr = 0#32 ∧
          ∀ g, g < (len + 2) / 3 → dst + g ∉ yms →
            readTryte t.ym (dst + g) = alphaAt (alphabetIndexOfValue (encodeSum (tmSeen 1 tms s) src len g))))) ∧
  (∀ (s : State) (tms yms : List Nat) (rest : List HostAction) (base len n : Nat),
    s.pending = .raceDuringCommand 0x00000003#32 tms yms :: rest →
    (∀ a ∈ tms, a < s.tm.size) → (∀ a ∈ yms, a < s.ym.size) →
    s.opa.toInt = base → s.opc.toInt = len → s.opd.toInt = n → base + len ≤ s.tm.size →
    ∃ t, step s = .next t ∧
      ((∃ j, j < len ∧ tRead (tmSeen 0 tms s) (base + j) = -2 ∧
          (∀ l, l < j → tRead (tmSeen 0 tms s) (base + l) ≠ -2) ∧
          t.result = 0#32 ∧ t.status = 0#27 ++ 1#1 ++ 5#4 ∧ t.faddr = BitVec.ofNat 32 (base + j) ∧
          ∀ a, a ∉ tms → readTrit t.tm a = readTrit s.tm a) ∨
        ((∀ j, j < len → tRead (tmSeen 0 tms s) (base + j) ≠ -2) ∧
          t.result = word32 (addLoop base len n (tmSeen 1 tms s)).2 ∧
          t.status = 0#27 ++ s.status.extractLsb' 4 1 ++ 0#4 ∧ t.faddr = 0#32 ∧
          ∀ a, a ∉ tms → readTrit t.tm a = readTrit (addLoop base len n (tmSeen 1 tms s)).1 a))) ∧
  (∀ (s : State) (tms yms : List Nat) (rest : List HostAction) (base len : Nat),
    s.pending = .raceDuringCommand 0x00000004#32 tms yms :: rest →
    (∀ a ∈ tms, a < s.tm.size) → (∀ a ∈ yms, a < s.ym.size) →
    s.opa.toInt = base → s.opc.toInt = len → base + len < s.tm.size →
    ∃ t k, step s = .next t ∧ t.result = 0#32 ∧ k ≤ len ∧
      (∀ j, j < k → tRead (tmSeen 0 tms s) (base + j) = 1) ∧
      (k < len → tRead (tmSeen 0 tms s) (base + k) ≠ 1) ∧
      (if tRead (tmSeen 1 tms s) (base + k) = -2 then
        t.status = 0#27 ++ 1#1 ++ 5#4 ∧ t.faddr = BitVec.ofNat 32 (base + k) ∧
          ∀ a, a ∉ tms → readTrit t.tm a = readTrit s.tm a
      else if k = len ∧ tRead (tmSeen 1 tms s) (base + k) = 1 then
        t.status = 0#27 ++ 1#1 ++ 6#4 ∧ t.faddr = BitVec.ofNat 32 (base + len) ∧
          ∀ a, a ∉ tms → readTrit t.tm a = readTrit s.tm a
      else
        t.status = 0#27 ++ s.status.extractLsb' 4 1 ++ 0#4 ∧ t.faddr = 0#32 ∧
          (∀ j, j < k → base + j ∉ tms → tRead t.tm (base + j) = -1) ∧
          (base + k ∉ tms → tRead t.tm (base + k) = tRead s.tm (base + k) + 1) ∧
          ∀ a, a ∉ tms → a < base ∨ base + k < a → readTrit t.tm a = readTrit s.tm a))
end

