-- ==== Sys2Proof/Laws/Flags.lean ====
section
/-! SUPPORT. The fields of the STATUS words a command writes (R24, R170, R171). -/

namespace Sys2Proof.Machine

@[simp] theorem errField_statusWord (b : Bool) (c : Cause) : errField (statusWord b c) = c.code := by
  cases b <;> cases c <;> decide

@[simp] theorem errAnyBit_statusWord (b : Bool) (c : Cause) : errAnyBit (statusWord b c) = b := by
  cases b <;> cases c <;> decide

/-- The hard-wired bits are 0 in every STATUS word a command writes. -/
@[simp] theorem reserved_statusWord (b : Bool) (c : Cause) : (statusWord b c).extractLsb' 5 27 = 0#27 := by
  cases b <;> cases c <;> decide

@[simp] theorem errField_afterFault (c : Cause) : errField (statusAfterFault c) = c.code :=
  errField_statusWord true c

@[simp] theorem errAnyBit_afterFault (c : Cause) : errAnyBit (statusAfterFault c) = true :=
  errAnyBit_statusWord true c

@[simp] theorem errField_afterCompletion (w : Word) : errField (statusAfterCompletion w) = 0#4 :=
  errField_statusWord (errAnyBit w) .none

@[simp] theorem errAnyBit_afterCompletion (w : Word) : errAnyBit (statusAfterCompletion w) = errAnyBit w :=
  errAnyBit_statusWord (errAnyBit w) .none

theorem code_toNat_le (c : Cause) : c.code.toNat ≤ 6 := by
  cases c <;> decide

theorem code_ne_zero {c : Cause} (h : c ≠ .none) : c.code ≠ 0#4 := by
  cases c <;> first | exact absurd rfl h | decide

/-- The STATUS word of a fault, field by field as R24 lays it out. -/
theorem statusAfterFault_eq (c : Cause) : statusAfterFault c = 0#27 ++ 1#1 ++ c.code := rfl

/-- The STATUS word of a completion, field by field as R24 lays it out. -/
theorem statusAfterCompletion_eq (w : Word) :
    statusAfterCompletion w = 0#27 ++ w.extractLsb' 4 1 ++ 0#4 := by
  have h : BitVec.ofBool (errAnyBit w) = w.extractLsb' 4 1 := by
    apply BitVec.eq_of_getLsbD_eq
    intro i hi
    have : i = 0 := by omega
    subst this
    simp [errAnyBit]
  unfold statusAfterCompletion statusWord
  rw [h]; rfl

end Sys2Proof.Machine
end

