-- ==== Sys2Proof/Laws/Memory.lean ====
section
/-! SUPPORT. What the memory operations of `Machine/Ops.lean` do: reading after writing, windows, and the
canonical form. -/

namespace Sys2Proof.Machine

variable {w : Nat}

/-! ## One cell -/

theorem findCell_putCell (l : List (Nat × BitVec w)) (a : Nat) (v : BitVec w) (b : Nat) :
    findCell (putCell l a v) b = if b = a then some v else findCell l b := by
  induction l with
  | nil => simp only [putCell, findCell]
  | cons head rest ih =>
    obtain ⟨c, u⟩ := head
    simp only [putCell]
    by_cases hlt : a < c
    · simp only [hlt, if_true, findCell]
    · by_cases heq : a = c
      · subst heq
        simp only [hlt, if_false, if_true, findCell]
        by_cases hb : b = a <;> simp [hb]
      · simp only [hlt, heq, if_false, findCell, ih]
        by_cases hb : b = c
        · simp [hb, Ne.symm heq]
        · simp [hb]

@[simp] theorem write_size (m : Memory w) (a : Nat) (v : BitVec w) : (m.write a v).size = m.size := rfl

theorem read_write (p : Nat → BitVec w) (m : Memory w) (a : Nat) (v : BitVec w) (b : Nat) :
    (m.write a v).read p b = if b = a then v else m.read p b := by
  simp only [Memory.read, Memory.write, findCell_putCell]
  by_cases h : b = a <;> simp [h]

theorem read_write_self (p : Nat → BitVec w) (m : Memory w) (a : Nat) (v : BitVec w) :
    (m.write a v).read p a = v := by
  simp [read_write]

theorem read_write_ne (p : Nat → BitVec w) (m : Memory w) {a b : Nat} (v : BitVec w) (h : b ≠ a) :
    (m.write a v).read p b = m.read p b := by
  simp [read_write, h]

/-! ## Windows -/

@[simp] theorem writeAll_size (m : Memory w) (a : Nat) (vs : List (BitVec w)) : (m.writeAll a vs).size = m.size := by
  induction vs generalizing m a with
  | nil => rfl
  | cons v vs ih => simp [Memory.writeAll, ih]

theorem read_writeAll_below (p : Nat → BitVec w) (m : Memory w) {a b : Nat} (vs : List (BitVec w)) (h : b < a) :
    (m.writeAll a vs).read p b = m.read p b := by
  induction vs generalizing m a with
  | nil => rfl
  | cons v vs ih =>
    rw [Memory.writeAll, ih _ (by omega), read_write_ne p m v (by omega)]

theorem read_writeAll_above (p : Nat → BitVec w) (m : Memory w) {a b : Nat} (vs : List (BitVec w))
    (h : a + vs.length ≤ b) : (m.writeAll a vs).read p b = m.read p b := by
  induction vs generalizing m a with
  | nil => rfl
  | cons v vs ih =>
    simp only [List.length_cons] at h
    rw [Memory.writeAll, ih _ (by omega), read_write_ne p m v (by omega)]

theorem read_writeAll_at (p : Nat → BitVec w) (m : Memory w) (a : Nat) (vs : List (BitVec w)) (i : Nat)
    (h : i < vs.length) : (m.writeAll a vs).read p (a + i) = vs[i] := by
  induction vs generalizing m a i with
  | nil => exact absurd h (by simp)
  | cons v vs ih =>
    cases i with
    | zero => rw [Memory.writeAll, read_writeAll_below p _ vs (by omega), Nat.add_zero, read_write_self]; rfl
    | succ i =>
      simp only [List.length_cons] at h
      have := ih (m.write a v) (a + 1) i (by omega)
      rw [Memory.writeAll, show a + (i + 1) = a + 1 + i by omega, this]
      rfl

/-- All that writing a list of cells does: the cells of the window take the listed values, every other cell keeps
its value. -/
theorem read_writeAll (p : Nat → BitVec w) (m : Memory w) (a : Nat) (vs : List (BitVec w)) (b : Nat) :
    (m.writeAll a vs).read p b =
      if h : a ≤ b ∧ b < a + vs.length then vs[b - a]'(by omega) else m.read p b := by
  by_cases h : a ≤ b ∧ b < a + vs.length
  · have hb : b = a + (b - a) := by omega
    rw [dif_pos h]
    conv_lhs => rw [hb]
    exact read_writeAll_at p m a vs (b - a) (by omega)
  · rw [dif_neg h]
    by_cases hlt : b < a
    · exact read_writeAll_below p m vs hlt
    · exact read_writeAll_above p m vs (by omega)

@[simp] theorem window_length (p : Nat → BitVec w) (m : Memory w) (a n : Nat) : (m.window p a n).length = n := by
  induction n generalizing a with
  | zero => rfl
  | succ n ih => simp [Memory.window, ih]

theorem window_get (p : Nat → BitVec w) (m : Memory w) (a n i : Nat) (h : i < (m.window p a n).length) :
    (m.window p a n)[i] = m.read p (a + i) := by
  induction n generalizing a i with
  | zero => exact absurd h (by simp)
  | succ n ih =>
    cases i with
    | zero => rfl
    | succ i =>
      have h' : i < n := by simpa using h
      simp only [Memory.window, List.getElem_cons_succ]
      rw [ih (a + 1) i (by simpa using h'), show a + 1 + i = a + (i + 1) by omega]

/-- Two memories that read alike over a window have the same window. -/
theorem window_congr (p : Nat → BitVec w) (m m' : Memory w) (a n : Nat)
    (h : ∀ i, i < n → m'.read p (a + i) = m.read p (a + i)) : m'.window p a n = m.window p a n := by
  induction n generalizing a with
  | zero => rfl
  | succ n ih =>
    have h0 : m'.read p a = m.read p a := by simpa using h 0 (by omega)
    have h1 : ∀ i, i < n → m'.read p (a + 1 + i) = m.read p (a + 1 + i) := fun i hi => by
      have := h (i + 1) (by omega)
      rwa [show a + 1 + i = a + (i + 1) by omega]
    simp [Memory.window, h0, ih _ h1]

/-- Reading back exactly what was written. -/
theorem window_writeAll_self (p : Nat → BitVec w) (m : Memory w) (a : Nat) (vs : List (BitVec w)) :
    (m.writeAll a vs).window p a vs.length = vs := by
  apply List.ext_getElem (by simp)
  intro i h1 h2
  rw [window_get, read_writeAll_at p m a vs i h2]

theorem window_append (p : Nat → BitVec w) (m : Memory w) (a n k : Nat) :
    m.window p a (n + k) = m.window p a n ++ m.window p (a + n) k := by
  induction n generalizing a with
  | zero => simp [Memory.window]
  | succ n ih =>
    rw [show n + 1 + k = n + k + 1 by omega]
    simp only [Memory.window, ih, List.cons_append]
    rw [show a + 1 + n = a + (n + 1) by omega]

@[simp] theorem freeCells_length (f : Nat → BitVec w) (a n : Nat) : (freeCells f a n).length = n := by
  induction n generalizing a with
  | zero => rfl
  | succ n ih => simp [freeCells, ih]

theorem freeCells_get (f : Nat → BitVec w) (a n i : Nat) (h : i < (freeCells f a n).length) :
    (freeCells f a n)[i] = f (a + i) := by
  induction n generalizing a i with
  | zero => exact absurd h (by simp)
  | succ n ih =>
    cases i with
    | zero => rfl
    | succ i =>
      have h' : i < n := by simpa using h
      simp only [freeCells, List.getElem_cons_succ]
      rw [ih (a + 1) i (by simpa using h'), show a + 1 + i = a + (i + 1) by omega]

/-! ## Check passes -/

/-- A check pass that finds nothing: every cell is good. -/
theorem firstBad_eq_none (bad : BitVec w → Bool) (a : Nat) (vs : List (BitVec w)) :
    firstBad bad a vs = none ↔ ∀ v ∈ vs, bad v = false := by
  induction vs generalizing a with
  | nil => simp [firstBad]
  | cons v vs ih =>
    simp only [firstBad, List.mem_cons, forall_eq_or_imp]
    by_cases h : bad v = true
    · simp [h]
    · simp [h, ih]

/-- A check pass that finds a bad cell: it is the lowest one. -/
theorem firstBad_eq_some (bad : BitVec w → Bool) (a : Nat) (vs : List (BitVec w)) (b : Nat) :
    firstBad bad a vs = some b ↔
      ∃ i, ∃ h : i < vs.length, b = a + i ∧ bad vs[i] = true ∧
        ∀ j, ∀ hj : j < i, bad (vs[j]'(by omega)) = false := by
  induction vs generalizing a with
  | nil => simp [firstBad]
  | cons v vs ih =>
    simp only [firstBad]
    by_cases h : bad v = true
    · simp only [h, if_true, Option.some.injEq]
      constructor
      · rintro rfl
        exact ⟨0, by simp, by simp, h, fun j hj => absurd hj (by omega)⟩
      · rintro ⟨i, hi, rfl, hbad, hlow⟩
        cases i with
        | zero => rfl
        | succ i => exact absurd (hlow 0 (by omega)) (by simp [h])
    · simp only [h, if_false, ih (a + 1), Bool.false_eq_true]
      constructor
      · rintro ⟨i, hi, rfl, hbad, hlow⟩
        refine ⟨i + 1, by simpa using hi, by omega, by simpa using hbad, fun j hj => ?_⟩
        cases j with
        | zero => simpa using h
        | succ j => simpa using hlow j (by omega)
      · rintro ⟨i, hi, rfl, hbad, hlow⟩
        cases i with
        | zero => exact absurd hbad (by simpa using h)
        | succ i =>
          refine ⟨i, by simpa using hi, by omega, by simpa using hbad, fun j hj => ?_⟩
          simpa using hlow (j + 1) (by omega)

/-! ## The canonical form -/

theorem cellsWf_mono (size : Nat) {low low' : Nat} (l : List (Nat × BitVec w)) (hle : low' ≤ low)
    (h : cellsWf size low l = true) : cellsWf size low' l = true := by
  cases l with
  | nil => rfl
  | cons head rest =>
    obtain ⟨c, u⟩ := head
    simp only [cellsWf, Bool.and_eq_true, decide_eq_true_eq] at h ⊢
    exact ⟨⟨by omega, h.1.2⟩, h.2⟩

theorem cellsWf_putCell (size low : Nat) (l : List (Nat × BitVec w)) (a : Nat) (v : BitVec w)
    (h : cellsWf size low l = true) (hlow : low ≤ a) (ha : a < size) :
    cellsWf size low (putCell l a v) = true := by
  induction l generalizing low with
  | nil => simp [putCell, cellsWf, hlow, ha]
  | cons head rest ih =>
    obtain ⟨c, u⟩ := head
    simp only [cellsWf, Bool.and_eq_true, decide_eq_true_eq] at h
    simp only [putCell]
    by_cases hlt : a < c
    · simp only [hlt, if_true, cellsWf, Bool.and_eq_true, decide_eq_true_eq]
      exact ⟨⟨hlow, ha⟩, ⟨by omega, h.1.2⟩, h.2⟩
    · by_cases heq : a = c
      · subst heq
        simp only [hlt, if_false, if_true, cellsWf, Bool.and_eq_true, decide_eq_true_eq]
        exact h
      · simp only [hlt, heq, if_false, cellsWf, Bool.and_eq_true, decide_eq_true_eq]
        exact ⟨h.1, ih (c + 1) h.2 (by omega)⟩

theorem write_wf (m : Memory w) (a : Nat) (v : BitVec w) (h : m.wf = true) (ha : a < m.size) :
    (m.write a v).wf = true :=
  cellsWf_putCell m.size 0 m.cells a v h (Nat.zero_le a) ha

theorem writeAll_wf (m : Memory w) (a : Nat) (vs : List (BitVec w)) (h : m.wf = true)
    (ha : a + vs.length ≤ m.size) : (m.writeAll a vs).wf = true := by
  induction vs generalizing m a with
  | nil => exact h
  | cons v vs ih =>
    simp only [List.length_cons] at ha
    exact ih (m.write a v) (a + 1) (write_wf m a v h (by omega)) (by rw [write_size]; omega)

end Sys2Proof.Machine
end

