-- ==== Sys2Proof/Laws/Operands.lean ====
section
/-! SUPPORT. What the operand forms and cell values of `Machine/Operands.lean` can be. -/

namespace Sys2Proof.Machine

/-! ## Operands -/

/-- A natural operand is exactly a word whose signed value is that number (R75, R77). -/
theorem natOperand_eq_some (w : Word) (n : Nat) : natOperand w = some n ↔ w.toInt = (n : Int) := by
  unfold natOperand sint32
  by_cases h : w.toInt < 0
  · simp only [h, if_true]
    constructor
    · intro hc; cases hc
    · intro hc; omega
  · simp only [h, if_false, Option.some.injEq]
    omega

theorem natOperand_eq_none (w : Word) : natOperand w = none ↔ w.toInt < 0 := by
  unfold natOperand sint32
  by_cases h : w.toInt < 0 <;> simp [h]

/-- A natural operand is below 2^31 (R10). -/
theorem natOperand_lt (w : Word) (n : Nat) (h : natOperand w = some n) : n < 2147483648 := by
  rw [natOperand_eq_some] at h
  have := BitVec.toInt_lt (x := w)
  omega

/-- A trit operand is exactly a word whose signed value is -1, 0 or 1, and its value is that one (R77). -/
theorem tritOperand_eq_some (w : Word) (x : Int) :
    tritOperand w = some x ↔ w.toInt = x ∧ (x = -1 ∨ x = 0 ∨ x = 1) := by
  unfold tritOperand sint32
  by_cases h1 : w.toInt = -1
  · simp only [h1, if_true, Option.some.injEq]; omega
  · by_cases h2 : w.toInt = 0
    · simp only [h2, if_true]; simp only [show ¬ ((0 : Int) = -1) by decide, if_false, Option.some.injEq]; omega
    · by_cases h3 : w.toInt = 1
      · simp only [h3, if_true]
        simp only [show ¬ ((1 : Int) = -1) by decide, show ¬ ((1 : Int) = 0) by decide, if_false, Option.some.injEq]; omega
      · simp only [h1, h2, h3, if_false]
        constructor
        · intro h; cases h
        · rintro ⟨rfl, h | h | h⟩ <;> contradiction

theorem tritOperand_eq_none (w : Word) :
    tritOperand w = none ↔ w.toInt ≠ -1 ∧ w.toInt ≠ 0 ∧ w.toInt ≠ 1 := by
  constructor
  · intro h
    refine ⟨fun hc => ?_, fun hc => ?_, fun hc => ?_⟩
    · rw [(tritOperand_eq_some w (-1)).2 ⟨hc, by decide⟩] at h; cases h
    · rw [(tritOperand_eq_some w 0).2 ⟨hc, by decide⟩] at h; cases h
    · rw [(tritOperand_eq_some w 1).2 ⟨hc, by decide⟩] at h; cases h
  · rintro ⟨h1, h2, h3⟩
    cases h : tritOperand w with
    | none => rfl
    | some x =>
      obtain ⟨rfl, hx⟩ := (tritOperand_eq_some w x).1 h
      omega

/-- The word of a natural number is its plain binary word. -/
theorem word32_natCast (n : Nat) : word32 (n : Int) = BitVec.ofNat 32 n := by
  unfold word32
  exact BitVec.ofInt_natCast 32 n

/-! ## Trit cells -/

/-- The four values of a cell (R35). -/
theorem tritValue_cases (t : TritCell) :
    tritValue t = -2 ∨ tritValue t = -1 ∨ tritValue t = 0 ∨ tritValue t = 1 := by
  revert t; decide

@[simp] theorem tritValue_eq_neg_two (t : TritCell) : tritValue t = -2 ↔ t = invalidTrit := by
  revert t; decide

theorem tritValue_injective {t u : TritCell} (h : tritValue t = tritValue u) : t = u := by
  revert t u; decide

/-- A stored trit reads back as itself (R12, R35). -/
theorem tritValue_tritCell (v : Int) (h : v = -2 ∨ v = -1 ∨ v = 0 ∨ v = 1) : tritValue (tritCell v) = v := by
  rcases h with rfl | rfl | rfl | rfl <;> decide

@[simp] theorem tritCell_tritValue (t : TritCell) : tritCell (tritValue t) = t := by
  revert t; decide

@[simp] theorem balancedValue_nil : balancedValue [] = 0 := rfl

@[simp] theorem balancedValue_cons (t : TritCell) (ts : List TritCell) :
    balancedValue (t :: ts) = tritValue t + 3 * balancedValue ts := rfl

theorem balancedValue_append (ts us : List TritCell) :
    balancedValue (ts ++ us) = balancedValue ts + 3 ^ ts.length * balancedValue us := by
  induction ts with
  | nil => simp
  | cons t ts ih => simp [ih, pow_succ]; ring

/-! ## Codes -/

/-- Facts about every character code, checked once over the 256 of them (R30, R31, R36, R37): a valid code has an
index below 27, ALPHA gives it back, and the row of that index holds trits. -/
theorem validTryte_spec (c : TryteCode) (h : validTryte c = true) :
    alphaIndex c < 27 ∧ alphaAt (alphaIndex c) = c := by
  revert c; decide

/-- Every row of the tryte ROM holds trits. -/
theorem tryteRow_trits (i : Nat) :
    ((tryteRow i).1 = -1 ∨ (tryteRow i).1 = 0 ∨ (tryteRow i).1 = 1) ∧
    ((tryteRow i).2.1 = -1 ∨ (tryteRow i).2.1 = 0 ∨ (tryteRow i).2.1 = 1) ∧
    ((tryteRow i).2.2 = -1 ∨ (tryteRow i).2.2 = 0 ∨ (tryteRow i).2.2 = 1) := by
  by_cases h : i < 27
  · have : ∀ j : Fin 27,
        ((tryteRow j.1).1 = -1 ∨ (tryteRow j.1).1 = 0 ∨ (tryteRow j.1).1 = 1) ∧
        ((tryteRow j.1).2.1 = -1 ∨ (tryteRow j.1).2.1 = 0 ∨ (tryteRow j.1).2.1 = 1) ∧
        ((tryteRow j.1).2.2 = -1 ∨ (tryteRow j.1).2.2 = 0 ∨ (tryteRow j.1).2.2 = 1) := by decide
    exact this ⟨i, h⟩
  · have : tryteRow i = (0, 0, 0) := by
      unfold tryteRow
      rw [List.getD_eq_default]
      simp [tryteRom]; omega
    simp [this]

/-- ALPHA holds only valid codes. -/
theorem alphaAt_valid (v : Nat) : validTryte (alphaAt v) = true := by
  by_cases h : v < 27
  · have : ∀ j : Fin 27, validTryte (alphaAt j.1) = true := by decide
    exact this ⟨v, h⟩
  · have : alphaAt v = 0x39#8 := by
      unfold alphaAt
      rw [List.getD_eq_default]
      simp [alphaRom]; omega
    rw [this]; decide

end Sys2Proof.Machine
end

