-- ==== Sys2Proof/Laws/Commands.lean ====
section
/-! SUPPORT. For each command, everything it can do, said once: which check ends it, or what it writes. A proof about
a command cites these and does not unfold its meaning. -/

namespace Sys2Proof.Machine

/-! ## Windows as lists -/

@[simp] theorem tritsAt_length (m : Memory 2) (a n : Nat) : (tritsAt m a n).length = n := window_length _ m a n

@[simp] theorem trytesAt_length (m : Memory 8) (a n : Nat) : (trytesAt m a n).length = n := window_length _ m a n

theorem tritsAt_get (m : Memory 2) (a n i : Nat) (h : i < (tritsAt m a n).length) :
    (tritsAt m a n)[i] = readTrit m (a + i) := window_get _ m a n i h

theorem trytesAt_get (m : Memory 8) (a n i : Nat) (h : i < (trytesAt m a n).length) :
    (trytesAt m a n)[i] = readTryte m (a + i) := window_get _ m a n i h

theorem readTrit_writeAll (m : Memory 2) (a : Nat) (vs : List TritCell) (b : Nat) :
    readTrit (m.writeAll a vs) b =
      if h : a ≤ b ∧ b < a + vs.length then vs[b - a]'(by omega) else readTrit m b :=
  read_writeAll _ m a vs b

theorem readTryte_writeAll (m : Memory 8) (a : Nat) (vs : List TryteCode) (b : Nat) :
    readTryte (m.writeAll a vs) b =
      if h : a ≤ b ∧ b < a + vs.length then vs[b - a]'(by omega) else readTryte m b :=
  read_writeAll _ m a vs b

/-- DECODE's check pass, in terms of the window's cells (R101). -/
theorem decodeCheck_none (m : Memory 8) (a n : Nat) :
    firstBad (fun c => !validTryte c) a (trytesAt m a n) = none ↔
      ∀ i, i < n → validTryte (readTryte m (a + i)) = true := by
  rw [firstBad_eq_none]
  constructor
  · intro h i hi
    have := h ((trytesAt m a n)[i]'(by simpa using hi)) (List.getElem_mem _)
    rw [trytesAt_get] at this
    simpa using this
  · intro h c hc
    obtain ⟨i, hi, rfl⟩ := List.getElem_of_mem hc
    rw [trytesAt_get]
    simpa using h i (by simpa using hi)

theorem decodeCheck_some (m : Memory 8) (a n b : Nat) :
    firstBad (fun c => !validTryte c) a (trytesAt m a n) = some b ↔
      ∃ i, i < n ∧ b = a + i ∧ validTryte (readTryte m (a + i)) = false ∧
        ∀ j, j < i → validTryte (readTryte m (a + j)) = true := by
  rw [firstBad_eq_some]
  constructor
  · rintro ⟨i, hi, rfl, hbad, hlow⟩
    rw [trytesAt_get] at hbad
    refine ⟨i, by simpa using hi, rfl, by simpa using hbad, fun j hj => ?_⟩
    have := hlow j hj
    rw [trytesAt_get] at this
    simpa using this
  · rintro ⟨i, hi, rfl, hbad, hlow⟩
    refine ⟨i, by simpa using hi, rfl, ?_, fun j hj => ?_⟩
    · rw [trytesAt_get]; simpa using hbad
    · rw [trytesAt_get]; simpa using hlow j hj

/-- ENCODE's and ADD's check pass, in terms of the window's cells (R105, R121). -/
theorem tritCheck_none (m : Memory 2) (a n : Nat) :
    firstBad (fun t => t == invalidTrit) a (tritsAt m a n) = none ↔ ∀ i, i < n → tRead m (a + i) ≠ -2 := by
  rw [firstBad_eq_none]
  constructor
  · intro h i hi
    have := h ((tritsAt m a n)[i]'(by simpa using hi)) (List.getElem_mem _)
    rw [tritsAt_get] at this
    simpa [tRead] using this
  · intro h c hc
    obtain ⟨i, hi, rfl⟩ := List.getElem_of_mem hc
    rw [tritsAt_get]
    simpa [tRead] using h i (by simpa using hi)

theorem tritCheck_some (m : Memory 2) (a n b : Nat) :
    firstBad (fun t => t == invalidTrit) a (tritsAt m a n) = some b ↔
      ∃ i, i < n ∧ b = a + i ∧ tRead m (a + i) = -2 ∧ ∀ j, j < i → tRead m (a + j) ≠ -2 := by
  rw [firstBad_eq_some]
  constructor
  · rintro ⟨i, hi, rfl, hbad, hlow⟩
    rw [tritsAt_get] at hbad
    refine ⟨i, by simpa using hi, rfl, by simpa [tRead] using hbad, fun j hj => ?_⟩
    have := hlow j hj
    rw [tritsAt_get] at this
    simpa [tRead] using this
  · rintro ⟨i, hi, rfl, hbad, hlow⟩
    refine ⟨i, by simpa using hi, rfl, ?_, fun j hj => ?_⟩
    · rw [tritsAt_get]; simpa [tRead] using hbad
    · rw [tritsAt_get]; simpa [tRead] using hlow j hj

/-! ## The lists a command writes -/

@[simp] theorem tripletOf_length (c : TryteCode) : (tripletOf c).length = 3 := rfl

@[simp] theorem decodeTrytes_length (cs : List TryteCode) : (decodeTrytes cs).length = 3 * cs.length := by
  induction cs with
  | nil => rfl
  | cons c cs ih => simp [decodeTrytes, ih]; omega

/-- Tryte i of a sequence gives trits 3i, 3i + 1 and 3i + 2 (R54). -/
theorem decodeTrytes_get (cs : List TryteCode) (i k : Nat) (hi : i < cs.length) (hk : k < 3) :
    (decodeTrytes cs)[3 * i + k]'(by simp; omega) = (tripletOf cs[i])[k] := by
  induction cs generalizing i with
  | nil => exact absurd hi (by simp)
  | cons c cs ih =>
    cases i with
    | zero => simp only [decodeTrytes]; rw [List.getElem_append_left (by simp; omega)]; simp
    | succ i =>
      simp only [List.length_cons] at hi
      have h3 : (tripletOf c).length ≤ 3 * (i + 1) + k := by rw [tripletOf_length]; omega
      have hidx : 3 * (i + 1) + k - (tripletOf c).length = 3 * i + k := by rw [tripletOf_length]; omega
      simp only [decodeTrytes, List.getElem_append_right h3, List.getElem_cons_succ, hidx]
      exact ih i (by omega)

theorem encodeTrits_length (ts : List TritCell) : (encodeTrits ts).length = groupCount ts.length := by
  induction ts using encodeTrits.induct with
  | case1 => rfl
  | case2 t => simp [encodeTrits, groupCount]
  | case3 t u => simp [encodeTrits, groupCount]
  | case4 t u v rest ih => simp [encodeTrits, ih, groupCount]; omega

@[simp] theorem addDigits_length (ts : List TritCell) (n : Nat) : (addDigits ts n).length = ts.length := by
  induction ts generalizing n with
  | nil => rfl
  | cons t ts ih => simp [addDigits, ih]

theorem rippleLength_le (ts : List TritCell) : rippleLength ts ≤ ts.length := by
  induction ts with
  | nil => simp [rippleLength]
  | cons t ts ih =>
    simp only [rippleLength, List.length_cons]
    split <;> omega

/-- Where INC's chain stops: every cell below holds 1, and the cell at k, if it is still in the window, does not
(R125). -/
theorem rippleLength_spec (m : Memory 2) (a n : Nat) :
    rippleLength (tritsAt m a n) ≤ n ∧
    (∀ j, j < rippleLength (tritsAt m a n) → tRead m (a + j) = 1) ∧
    (rippleLength (tritsAt m a n) < n → tRead m (a + rippleLength (tritsAt m a n)) ≠ 1) := by
  induction n generalizing a with
  | zero => simp [tritsAt, Memory.window, rippleLength]
  | succ n ih =>
    have hs : tritsAt m a (n + 1) = readTrit m a :: tritsAt m (a + 1) n := rfl
    rw [hs]
    simp only [rippleLength]
    by_cases h : tritValue (readTrit m a) = 1
    · simp only [h, if_true]
      obtain ⟨h1, h2, h3⟩ := ih (a + 1)
      refine ⟨by omega, fun j hj => ?_, fun hk => ?_⟩
      · cases j with
        | zero => exact h
        | succ j => have := h2 j (by omega); rwa [show a + 1 + j = a + (j + 1) by omega] at this
      · have := h3 (by omega)
        rwa [show a + 1 + rippleLength (tritsAt m (a + 1) n) = a + (rippleLength (tritsAt m (a + 1) n) + 1) by omega]
          at this
    · simp only [h, if_false]
      exact ⟨by omega, fun j hj => absurd hj (by omega), fun _ => h⟩

/-- One ADD stage: the digit and the carry together are the trit plus the incoming carry, and the digit is a trit
(R120, R122). -/
theorem stage_law (t : TritCell) (n : Nat) (h : tritValue t ≠ -2) :
    tritValue (stageDigit t n) + 3 * (stageCarry t n : Int) = tritValue t + n ∧
    (tritValue (stageDigit t n) = -1 ∨ tritValue (stageDigit t n) = 0 ∨ tritValue (stageDigit t n) = 1) := by
  have hv : tritValue t = -1 ∨ tritValue t = 0 ∨ tritValue t = 1 := by
    rcases tritValue_cases t with h' | h' | h' | h'
    · exact absurd h' h
    all_goals omega
  unfold stageDigit stageCarry
  by_cases hs : 1 < stageSum t n
  · simp only [hs, if_true]
    unfold stageSum at hs ⊢
    rw [tritValue_tritCell _ (by omega)]
    push_cast
    omega
  · simp only [hs, if_false]
    unfold stageSum at hs ⊢
    rw [tritValue_tritCell _ (by omega)]
    push_cast
    omega

/-! ## Everything each command can do -/

/-- DECODE on natural operands. -/
theorem decodeSeeing_cases (checked used : Memory 8) (src dst count : Nat) (s : State) :
    (decodeSeeing checked used src dst count s = raiseFault .bounds 0 s ∧
      (s.ym.size < src + count ∨ s.tm.size < dst + 3 * count)) ∨
    (src + count ≤ s.ym.size ∧ dst + 3 * count ≤ s.tm.size ∧
      ((∃ i, i < count ∧ decodeSeeing checked used src dst count s = raiseFault .invalidTryte (src + i) s ∧
          validTryte (readTryte checked (src + i)) = false ∧
          ∀ j, j < i → validTryte (readTryte checked (src + j)) = true) ∨
        (decodeSeeing checked used src dst count s =
            complete 0#32 (s.withTm (s.tm.writeAll dst (decodeTrytes (trytesAt used src count)))) ∧
          ∀ i, i < count → validTryte (readTryte checked (src + i)) = true))) := by
  unfold decodeSeeing
  by_cases h1 : s.ym.size < src + count
  · left; simp [h1]
  by_cases h2 : s.tm.size < dst + 3 * count
  · left; simp [h1, h2]
  right
  refine ⟨by omega, by omega, ?_⟩
  simp only [h1, h2, if_false]
  cases hb : firstBad (fun c => !validTryte c) src (trytesAt checked src count) with
  | none => right; exact ⟨rfl, (decodeCheck_none _ _ _).1 hb⟩
  | some b =>
    left
    obtain ⟨i, hi, rfl, hbad, hlow⟩ := (decodeCheck_some _ _ _ _).1 hb
    exact ⟨i, hi, rfl, hbad, hlow⟩

/-- DECODE's operands: all natural, or INVALID_OPERAND. -/
theorem runDecodeSeeing_cases (checked used : Memory 8) (s : State) :
    (runDecodeSeeing checked used s = raiseFault .invalidOperand 0 s ∧ (s.opa.toInt < 0 ∨ s.opb.toInt < 0 ∨ s.opc.toInt < 0)) ∨
    (∃ src dst count : Nat, s.opa.toInt = src ∧ s.opb.toInt = dst ∧ s.opc.toInt = count ∧
      runDecodeSeeing checked used s = decodeSeeing checked used src dst count s) := by
  unfold runDecodeSeeing
  cases ha : natOperand s.opa with
  | none => left; exact ⟨rfl, Or.inl ((natOperand_eq_none _).1 ha)⟩
  | some src =>
    cases hb : natOperand s.opb with
    | none => left; exact ⟨rfl, Or.inr (Or.inl ((natOperand_eq_none _).1 hb))⟩
    | some dst =>
      cases hc : natOperand s.opc with
      | none => left; exact ⟨rfl, Or.inr (Or.inr ((natOperand_eq_none _).1 hc))⟩
      | some count =>
        right
        exact ⟨src, dst, count, (natOperand_eq_some _ _).1 ha, (natOperand_eq_some _ _).1 hb,
          (natOperand_eq_some _ _).1 hc, rfl⟩

/-- ENCODE on natural operands. -/
theorem encodeSeeing_cases (checked used : Memory 2) (src dst len : Nat) (s : State) :
    (encodeSeeing checked used src dst len s = raiseFault .bounds 0 s ∧
      (s.tm.size < src + len ∨ s.ym.size < dst + groupCount len)) ∨
    (src + len ≤ s.tm.size ∧ dst + groupCount len ≤ s.ym.size ∧
      ((∃ i, i < len ∧ encodeSeeing checked used src dst len s = raiseFault .invalidTrit (src + i) s ∧
          tRead checked (src + i) = -2 ∧ ∀ j, j < i → tRead checked (src + j) ≠ -2) ∨
        (encodeSeeing checked used src dst len s =
            complete 0#32 (s.withYm (s.ym.writeAll dst (encodeTrits (tritsAt used src len)))) ∧
          ∀ i, i < len → tRead checked (src + i) ≠ -2))) := by
  unfold encodeSeeing
  by_cases h1 : s.tm.size < src + len
  · left; simp [h1]
  by_cases h2 : s.ym.size < dst + groupCount len
  · left; simp [h1, h2]
  right
  refine ⟨by omega, by omega, ?_⟩
  simp only [h1, h2, if_false]
  cases hb : firstBad (fun t => t == invalidTrit) src (tritsAt checked src len) with
  | none => right; exact ⟨rfl, (tritCheck_none _ _ _).1 hb⟩
  | some b =>
    left
    obtain ⟨i, hi, rfl, hbad, hlow⟩ := (tritCheck_some _ _ _ _).1 hb
    exact ⟨i, hi, rfl, hbad, hlow⟩

/-- ENCODE's operands: all natural, or INVALID_OPERAND. -/
theorem runEncodeSeeing_cases (checked used : Memory 2) (s : State) :
    (runEncodeSeeing checked used s = raiseFault .invalidOperand 0 s ∧ (s.opa.toInt < 0 ∨ s.opb.toInt < 0 ∨ s.opc.toInt < 0)) ∨
    (∃ src dst len : Nat, s.opa.toInt = src ∧ s.opb.toInt = dst ∧ s.opc.toInt = len ∧
      runEncodeSeeing checked used s = encodeSeeing checked used src dst len s) := by
  unfold runEncodeSeeing
  cases ha : natOperand s.opa with
  | none => left; exact ⟨rfl, Or.inl ((natOperand_eq_none _).1 ha)⟩
  | some src =>
    cases hb : natOperand s.opb with
    | none => left; exact ⟨rfl, Or.inr (Or.inl ((natOperand_eq_none _).1 hb))⟩
    | some dst =>
      cases hc : natOperand s.opc with
      | none => left; exact ⟨rfl, Or.inr (Or.inr ((natOperand_eq_none _).1 hc))⟩
      | some len =>
        right
        exact ⟨src, dst, len, (natOperand_eq_some _ _).1 ha, (natOperand_eq_some _ _).1 hb,
          (natOperand_eq_some _ _).1 hc, rfl⟩

/-- ADD on natural operands. -/
theorem addSeeing_cases (checked used : Memory 2) (base len n : Nat) (s : State) :
    (addSeeing checked used base len n s = raiseFault .bounds 0 s ∧ s.tm.size < base + len) ∨
    (base + len ≤ s.tm.size ∧
      ((∃ i, i < len ∧ addSeeing checked used base len n s = raiseFault .invalidTrit (base + i) s ∧
          tRead checked (base + i) = -2 ∧ ∀ j, j < i → tRead checked (base + j) ≠ -2) ∨
        (addSeeing checked used base len n s =
            complete (word32 (addCarry (tritsAt used base len) n))
              (s.withTm (s.tm.writeAll base (addDigits (tritsAt used base len) n))) ∧
          ∀ i, i < len → tRead checked (base + i) ≠ -2))) := by
  unfold addSeeing
  by_cases h1 : s.tm.size < base + len
  · left; simp [h1]
  right
  refine ⟨by omega, ?_⟩
  simp only [h1, if_false]
  cases hb : firstBad (fun t => t == invalidTrit) base (tritsAt checked base len) with
  | none => right; exact ⟨rfl, (tritCheck_none _ _ _).1 hb⟩
  | some b =>
    left
    obtain ⟨i, hi, rfl, hbad, hlow⟩ := (tritCheck_some _ _ _ _).1 hb
    exact ⟨i, hi, rfl, hbad, hlow⟩

/-- ADD's operands: all natural, or INVALID_OPERAND. -/
theorem runAddSeeing_cases (checked used : Memory 2) (s : State) :
    (runAddSeeing checked used s = raiseFault .invalidOperand 0 s ∧ (s.opa.toInt < 0 ∨ s.opc.toInt < 0 ∨ s.opd.toInt < 0)) ∨
    (∃ base len n : Nat, s.opa.toInt = base ∧ s.opc.toInt = len ∧ s.opd.toInt = n ∧
      runAddSeeing checked used s = addSeeing checked used base len n s) := by
  unfold runAddSeeing
  cases ha : natOperand s.opa with
  | none => left; exact ⟨rfl, Or.inl ((natOperand_eq_none _).1 ha)⟩
  | some base =>
    cases hb : natOperand s.opc with
    | none => left; exact ⟨rfl, Or.inr (Or.inl ((natOperand_eq_none _).1 hb))⟩
    | some len =>
      cases hc : natOperand s.opd with
      | none => left; exact ⟨rfl, Or.inr (Or.inr ((natOperand_eq_none _).1 hc))⟩
      | some n =>
        right
        exact ⟨base, len, n, (natOperand_eq_some _ _).1 ha, (natOperand_eq_some _ _).1 hb,
          (natOperand_eq_some _ _).1 hc, rfl⟩

/-- INC on natural operands: the five ways it ends, with k where its chain stopped (R125). -/
theorem incSeeing_cases (tested used : Memory 2) (base len : Nat) (s : State) :
    (incSeeing tested used base len s = raiseFault .bounds 0 s ∧ s.tm.size < base + len) ∨
    (base + len ≤ s.tm.size ∧ ∃ k, k ≤ len ∧ (∀ j, j < k → tRead tested (base + j) = 1) ∧
      (k < len → tRead tested (base + k) ≠ 1) ∧
      ((incSeeing tested used base len s = raiseFault .bounds 0 s ∧ k = len ∧ base + len = s.tm.size) ∨
       (base + k < s.tm.size ∧
        ((incSeeing tested used base len s = raiseFault .invalidTrit (base + k) s ∧ tRead used (base + k) = -2) ∨
         (incSeeing tested used base len s = raiseFault .incOverflow (base + len) s ∧
            k = len ∧ tRead used (base + k) = 1) ∨
         (incSeeing tested used base len s =
            complete 0#32 (s.withTm (s.tm.writeAll base
              (List.replicate k (tritCell (-1)) ++ [tritCell (tRead used (base + k) + 1)]))) ∧
          tRead used (base + k) ≠ -2 ∧ ¬ (k = len ∧ tRead used (base + k) = 1)))))) := by
  unfold incSeeing
  by_cases h1 : s.tm.size < base + len
  · left; simp [h1]
  right
  obtain ⟨hk, hones, hstop⟩ := rippleLength_spec tested base len
  refine ⟨by omega, rippleLength (tritsAt tested base len), hk, hones, hstop, ?_⟩
  simp only [h1, if_false]
  generalize rippleLength (tritsAt tested base len) = k at *
  unfold incAt
  by_cases h2 : k = len ∧ s.tm.size ≤ base + len
  · left; simp only [h2, and_self, if_true]; exact ⟨trivial, trivial, by omega⟩
  right
  simp only [h2, if_false]
  refine ⟨by omega, ?_⟩
  by_cases h3 : tRead used (base + k) = -2
  · left; simp [h3]
  right
  simp only [h3, if_false]
  by_cases h4 : k = len ∧ tRead used (base + k) = 1
  · left; rw [if_pos h4]; exact ⟨rfl, h4⟩
  right
  rw [if_neg h4]
  exact ⟨rfl, h3, h4⟩

/-- INC whose every read sees the same memory: it completes only on a cell that holds -1 or 0 (R125). -/
theorem incUnraced_cases (base len : Nat) (s : State) :
    (incSeeing s.tm s.tm base len s = raiseFault .bounds 0 s ∧ s.tm.size < base + len) ∨
    (base + len ≤ s.tm.size ∧ ∃ k, k ≤ len ∧ (∀ j, j < k → tRead s.tm (base + j) = 1) ∧
      (k < len → tRead s.tm (base + k) ≠ 1) ∧
      ((incSeeing s.tm s.tm base len s = raiseFault .bounds 0 s ∧ k = len ∧ base + len = s.tm.size) ∨
       (base + k < s.tm.size ∧
        ((incSeeing s.tm s.tm base len s = raiseFault .invalidTrit (base + k) s ∧ tRead s.tm (base + k) = -2) ∨
         (incSeeing s.tm s.tm base len s = raiseFault .incOverflow (base + len) s ∧
            k = len ∧ tRead s.tm (base + k) = 1) ∨
         (incSeeing s.tm s.tm base len s =
            complete 0#32 (s.withTm (s.tm.writeAll base
              (List.replicate k (tritCell (-1)) ++ [tritCell (tRead s.tm (base + k) + 1)]))) ∧
          (tRead s.tm (base + k) = -1 ∨ tRead s.tm (base + k) = 0)))))) := by
  rcases incSeeing_cases s.tm s.tm base len s with h | ⟨h0, k, hk, hones, hstop, h | ⟨hb, h | h | ⟨h, h3, h4⟩⟩⟩
  · exact .inl h
  · exact .inr ⟨h0, k, hk, hones, hstop, .inl h⟩
  · exact .inr ⟨h0, k, hk, hones, hstop, .inr ⟨hb, .inl h⟩⟩
  · exact .inr ⟨h0, k, hk, hones, hstop, .inr ⟨hb, .inr (.inl h)⟩⟩
  · refine .inr ⟨h0, k, hk, hones, hstop, .inr ⟨hb, .inr (.inr ⟨h, ?_⟩)⟩⟩
    rcases tritValue_cases (readTrit s.tm (base + k)) with h' | h' | h' | h'
    · exact absurd h' h3
    · exact .inl h'
    · exact .inr h'
    · rcases Nat.lt_or_ge k len with hlt | hge
      · exact absurd h' (hstop hlt)
      · exact absurd ⟨by omega, h'⟩ h4

/-- INC's operands: both natural, or INVALID_OPERAND. -/
theorem runIncSeeing_cases (tested used : Memory 2) (s : State) :
    (runIncSeeing tested used s = raiseFault .invalidOperand 0 s ∧ (s.opa.toInt < 0 ∨ s.opc.toInt < 0)) ∨
    (∃ base len : Nat, s.opa.toInt = base ∧ s.opc.toInt = len ∧ runIncSeeing tested used s = incSeeing tested used base len s) := by
  unfold runIncSeeing
  cases ha : natOperand s.opa with
  | none => left; exact ⟨rfl, Or.inl ((natOperand_eq_none _).1 ha)⟩
  | some base =>
    cases hb : natOperand s.opc with
    | none => left; exact ⟨rfl, Or.inr ((natOperand_eq_none _).1 hb)⟩
    | some len =>
      right
      exact ⟨base, len, (natOperand_eq_some _ _).1 ha, (natOperand_eq_some _ _).1 hb, rfl⟩

/-! ## The same with no race -/

theorem runDecode_cases (s : State) :
    (runDecode s = raiseFault .invalidOperand 0 s ∧ (s.opa.toInt < 0 ∨ s.opb.toInt < 0 ∨ s.opc.toInt < 0)) ∨
    (∃ src dst count : Nat, s.opa.toInt = src ∧ s.opb.toInt = dst ∧ s.opc.toInt = count ∧
      runDecode s = decodeSeeing s.ym s.ym src dst count s) :=
  runDecodeSeeing_cases s.ym s.ym s

theorem runEncode_cases (s : State) :
    (runEncode s = raiseFault .invalidOperand 0 s ∧ (s.opa.toInt < 0 ∨ s.opb.toInt < 0 ∨ s.opc.toInt < 0)) ∨
    (∃ src dst len : Nat, s.opa.toInt = src ∧ s.opb.toInt = dst ∧ s.opc.toInt = len ∧
      runEncode s = encodeSeeing s.tm s.tm src dst len s) :=
  runEncodeSeeing_cases s.tm s.tm s

theorem runAdd_cases (s : State) :
    (runAdd s = raiseFault .invalidOperand 0 s ∧ (s.opa.toInt < 0 ∨ s.opc.toInt < 0 ∨ s.opd.toInt < 0)) ∨
    (∃ base len n : Nat, s.opa.toInt = base ∧ s.opc.toInt = len ∧ s.opd.toInt = n ∧
      runAdd s = addSeeing s.tm s.tm base len n s) :=
  runAddSeeing_cases s.tm s.tm s

theorem runInc_cases (s : State) :
    (runInc s = raiseFault .invalidOperand 0 s ∧ (s.opa.toInt < 0 ∨ s.opc.toInt < 0)) ∨
    (∃ base len : Nat, s.opa.toInt = base ∧ s.opc.toInt = len ∧ runInc s = incSeeing s.tm s.tm base len s) :=
  runIncSeeing_cases s.tm s.tm s

/-- TTEVAL: both inputs trits, or INVALID_OPERAND (R141). -/
theorem runTteval_cases (s : State) :
    (runTteval s = raiseFault .invalidOperand 0 s ∧ (tritOperand s.opa = none ∨ tritOperand s.opb = none)) ∨
    (∃ x1 x2 : Int, tritOperand s.opa = some x1 ∧ tritOperand s.opb = some x2 ∧
      runTteval s = complete (word32 (gateNetwork x1 x2)) s) := by
  unfold runTteval
  cases ha : tritOperand s.opa with
  | none => left; exact ⟨rfl, Or.inl rfl⟩
  | some x1 =>
    cases hb : tritOperand s.opb with
    | none => left; exact ⟨rfl, Or.inr rfl⟩
    | some x2 => right; exact ⟨x1, x2, rfl, rfl, rfl⟩

/-- Every instruction answers a next state: a fault of the spec is a record in the registers (R170, R187). -/
theorem exec_next (i : Instr) (s : State) : ∃ t, exec i s = .next t := by
  cases i <;> exact ⟨_, rfl⟩

end Sys2Proof.Machine
end

