-- ==== Sys2Proof/Laws/Cells.lean ====
section
/-! SUPPORT. The cells the commands write, one by one, in the terms of the spec's pseudocode. -/

namespace Sys2Proof.Machine

/-- DECODE's window after its writes: trit 3i + k is trit k of tryte i's row (R54, R101). -/
theorem readTrit_decoded (m : Memory 2) (y : Memory 8) (src dst count i k : Nat) (hi : i < count) (hk : k < 3) :
    readTrit (m.writeAll dst (decodeTrytes (trytesAt y src count))) (dst + 3 * i + k) =
      (tripletOf (readTryte y (src + i)))[k] := by
  rw [readTrit_writeAll, dif_pos (by simp; omega)]
  have hl : i < (trytesAt y src count).length := by simpa using hi
  have hget := decodeTrytes_get (trytesAt y src count) i k hl hk
  rw [trytesAt_get] at hget
  rw [← hget]
  congr 1
  omega

/-- ENCODE's list of characters: group g gives the character of its sum (R105). -/
theorem encodeTrits_get (m : Memory 2) (src len : Nat) :
    ∀ (g : Nat) (hg : g < (encodeTrits (tritsAt m src len)).length),
      (encodeTrits (tritsAt m src len))[g] = alphaAt (alphabetIndexOfValue (encodeSum m src len g)) := by
  induction len using Nat.strong_induction_on generalizing src with
  | _ len ih =>
    intro g hg
    have hl := encodeTrits_length (tritsAt m src len)
    simp only [tritsAt_length, groupCount] at hl
    match len, ih, hg, hl with
    | 0, _, hg, hl => simp [tritsAt, Memory.window, encodeTrits] at hg
    | 1, _, hg, hl =>
      have hg0 : g = 0 := by omega
      subst hg0
      simp [tritsAt, Memory.window, encodeTrits, groupCode, encodeSum, encodeTerm, tRead, readTrit]
    | 2, _, hg, hl =>
      have hg0 : g = 0 := by omega
      subst hg0
      simp [tritsAt, Memory.window, encodeTrits, groupCode, encodeSum, encodeTerm, tRead, readTrit]
    | n + 3, ih, hg, hl =>
      have e : tritsAt m src (n + 3) =
          readTrit m src :: readTrit m (src + 1) :: readTrit m (src + 2) :: tritsAt m (src + 3) n := rfl
      simp only [e, encodeTrits] at hg ⊢
      cases g with
      | zero => simp [groupCode, encodeSum, encodeTerm, tRead]; congr 2; ring
      | succ g =>
        simp only [List.getElem_cons_succ]
        rw [ih n (by omega) (src + 3) g (by simpa using hg)]
        have h (w k : Nat) : encodeTerm m (src + 3) n w (3 * g + k) = encodeTerm m src (n + 3) w (3 * (g + 1) + k) := by
          simp only [encodeTerm, show (3 * g + k < n) = (3 * (g + 1) + k < n + 3) by simp; omega,
            show src + 3 + (3 * g + k) = src + (3 * (g + 1) + k) by omega]
        have h0 := h 1 0
        have h1 := h 3 1
        have h2 := h 9 2
        simp only [encodeSum]
        rw [← h1, ← h2]
        simp only [Nat.add_zero] at h0
        rw [← h0]

/-- INC's window after its writes: the cells below the last visited one hold -1, that one its new value (R125). -/
theorem incremented_cells (m : Memory 2) (base k : Nat) (v : Int) (hv : v = 0 ∨ v = 1) :
    (∀ j, j < k → tRead (m.writeAll base (List.replicate k (tritCell (-1)) ++ [tritCell v])) (base + j) = -1) ∧
    tRead (m.writeAll base (List.replicate k (tritCell (-1)) ++ [tritCell v])) (base + k) = v ∧
    (∀ a, a < base ∨ base + k < a →
      readTrit (m.writeAll base (List.replicate k (tritCell (-1)) ++ [tritCell v])) a = readTrit m a) := by
  refine ⟨fun j hj => ?_, ?_, fun a ha => ?_⟩
  · rw [tRead, readTrit_writeAll, dif_pos (by simp; omega), List.getElem_append_left (by simp; omega)]
    simp only [List.getElem_replicate]
    decide
  · rw [tRead, readTrit_writeAll, dif_pos (by simp), List.getElem_append_right (by simp)]
    simpa using tritValue_tritCell v (by omega)
  · rw [readTrit_writeAll, dif_neg (by simp; omega)]

/-- A window filled with free draws holds them, and no other cell changes (R64, R184). -/
theorem read_freeCells {w : Nat} (p : Nat → BitVec w) (m : Memory w) (f : Nat → BitVec w) (a n b : Nat) :
    (m.writeAll a (freeCells f a n)).read p b = if a ≤ b ∧ b < a + n then f b else m.read p b := by
  rw [read_writeAll]
  simp only [freeCells_length]
  split
  · rw [freeCells_get]; congr 1; omega
  · rfl

/-- A window that starts at a natural and fits its memory is all there (R51, R52). -/
theorem cellsIn_fitting (size lo n : Nat) (hi : Int) (h : hi = (lo : Int) + n) (hfit : lo + n ≤ size) :
    cellsIn size (lo, hi) = (lo, n) := by
  simp only [cellsIn, Prod.mk.injEq]; omega

end Sys2Proof.Machine
end

