-- ==== Sys2Proof/Laws/State.lean ====
section
/-! SUPPORT. One lemma per field of State per update of it, so that no later proof unfolds a record update. -/

namespace Sys2Proof.Machine

variable (s : State)

/-! ### withTm -/

@[simp] theorem withTm_opa (m : Memory 2) : (s.withTm m).opa = s.opa := rfl
@[simp] theorem withTm_opb (m : Memory 2) : (s.withTm m).opb = s.opb := rfl
@[simp] theorem withTm_opc (m : Memory 2) : (s.withTm m).opc = s.opc := rfl
@[simp] theorem withTm_opd (m : Memory 2) : (s.withTm m).opd = s.opd := rfl
@[simp] theorem withTm_result (m : Memory 2) : (s.withTm m).result = s.result := rfl
@[simp] theorem withTm_status (m : Memory 2) : (s.withTm m).status = s.status := rfl
@[simp] theorem withTm_faddr (m : Memory 2) : (s.withTm m).faddr = s.faddr := rfl
@[simp] theorem withTm_tm (m : Memory 2) : (s.withTm m).tm = m := rfl
@[simp] theorem withTm_ym (m : Memory 2) : (s.withTm m).ym = s.ym := rfl
@[simp] theorem withTm_pending (m : Memory 2) : (s.withTm m).pending = s.pending := rfl
@[simp] theorem withTm_readData (m : Memory 2) : (s.withTm m).readData = s.readData := rfl
@[simp] theorem withTm_draws (m : Memory 2) : (s.withTm m).draws = s.draws := rfl

/-! ### withYm -/

@[simp] theorem withYm_opa (m : Memory 8) : (s.withYm m).opa = s.opa := rfl
@[simp] theorem withYm_opb (m : Memory 8) : (s.withYm m).opb = s.opb := rfl
@[simp] theorem withYm_opc (m : Memory 8) : (s.withYm m).opc = s.opc := rfl
@[simp] theorem withYm_opd (m : Memory 8) : (s.withYm m).opd = s.opd := rfl
@[simp] theorem withYm_result (m : Memory 8) : (s.withYm m).result = s.result := rfl
@[simp] theorem withYm_status (m : Memory 8) : (s.withYm m).status = s.status := rfl
@[simp] theorem withYm_faddr (m : Memory 8) : (s.withYm m).faddr = s.faddr := rfl
@[simp] theorem withYm_tm (m : Memory 8) : (s.withYm m).tm = s.tm := rfl
@[simp] theorem withYm_ym (m : Memory 8) : (s.withYm m).ym = m := rfl
@[simp] theorem withYm_pending (m : Memory 8) : (s.withYm m).pending = s.pending := rfl
@[simp] theorem withYm_readData (m : Memory 8) : (s.withYm m).readData = s.readData := rfl
@[simp] theorem withYm_draws (m : Memory 8) : (s.withYm m).draws = s.draws := rfl

/-! ### withPending -/

@[simp] theorem withPending_opa (p : List HostAction) : (s.withPending p).opa = s.opa := rfl
@[simp] theorem withPending_opb (p : List HostAction) : (s.withPending p).opb = s.opb := rfl
@[simp] theorem withPending_opc (p : List HostAction) : (s.withPending p).opc = s.opc := rfl
@[simp] theorem withPending_opd (p : List HostAction) : (s.withPending p).opd = s.opd := rfl
@[simp] theorem withPending_result (p : List HostAction) : (s.withPending p).result = s.result := rfl
@[simp] theorem withPending_status (p : List HostAction) : (s.withPending p).status = s.status := rfl
@[simp] theorem withPending_faddr (p : List HostAction) : (s.withPending p).faddr = s.faddr := rfl
@[simp] theorem withPending_tm (p : List HostAction) : (s.withPending p).tm = s.tm := rfl
@[simp] theorem withPending_ym (p : List HostAction) : (s.withPending p).ym = s.ym := rfl
@[simp] theorem withPending_pending (p : List HostAction) : (s.withPending p).pending = p := rfl
@[simp] theorem withPending_readData (p : List HostAction) : (s.withPending p).readData = s.readData := rfl
@[simp] theorem withPending_draws (p : List HostAction) : (s.withPending p).draws = s.draws := rfl

/-! ### withRead -/

@[simp] theorem withRead_opa (w : Word) : (s.withRead w).opa = s.opa := rfl
@[simp] theorem withRead_opb (w : Word) : (s.withRead w).opb = s.opb := rfl
@[simp] theorem withRead_opc (w : Word) : (s.withRead w).opc = s.opc := rfl
@[simp] theorem withRead_opd (w : Word) : (s.withRead w).opd = s.opd := rfl
@[simp] theorem withRead_result (w : Word) : (s.withRead w).result = s.result := rfl
@[simp] theorem withRead_status (w : Word) : (s.withRead w).status = s.status := rfl
@[simp] theorem withRead_faddr (w : Word) : (s.withRead w).faddr = s.faddr := rfl
@[simp] theorem withRead_tm (w : Word) : (s.withRead w).tm = s.tm := rfl
@[simp] theorem withRead_ym (w : Word) : (s.withRead w).ym = s.ym := rfl
@[simp] theorem withRead_pending (w : Word) : (s.withRead w).pending = s.pending := rfl
@[simp] theorem withRead_readData (w : Word) : (s.withRead w).readData = w :: s.readData := rfl
@[simp] theorem withRead_draws (w : Word) : (s.withRead w).draws = s.draws := rfl

/-! ### drawn -/

@[simp] theorem drawn_opa : (s.drawn).opa = s.opa := rfl
@[simp] theorem drawn_opb : (s.drawn).opb = s.opb := rfl
@[simp] theorem drawn_opc : (s.drawn).opc = s.opc := rfl
@[simp] theorem drawn_opd : (s.drawn).opd = s.opd := rfl
@[simp] theorem drawn_result : (s.drawn).result = s.result := rfl
@[simp] theorem drawn_status : (s.drawn).status = s.status := rfl
@[simp] theorem drawn_faddr : (s.drawn).faddr = s.faddr := rfl
@[simp] theorem drawn_tm : (s.drawn).tm = s.tm := rfl
@[simp] theorem drawn_ym : (s.drawn).ym = s.ym := rfl
@[simp] theorem drawn_pending : (s.drawn).pending = s.pending := rfl
@[simp] theorem drawn_readData : (s.drawn).readData = s.readData := rfl
@[simp] theorem drawn_draws : (s.drawn).draws = s.draws + 1 := rfl

/-! ### resetRegisters -/

@[simp] theorem resetRegisters_opa : (s.resetRegisters).opa = 0#32 := rfl
@[simp] theorem resetRegisters_opb : (s.resetRegisters).opb = 0#32 := rfl
@[simp] theorem resetRegisters_opc : (s.resetRegisters).opc = 0#32 := rfl
@[simp] theorem resetRegisters_opd : (s.resetRegisters).opd = 0#32 := rfl
@[simp] theorem resetRegisters_result : (s.resetRegisters).result = 0#32 := rfl
@[simp] theorem resetRegisters_status : (s.resetRegisters).status = 0#32 := rfl
@[simp] theorem resetRegisters_faddr : (s.resetRegisters).faddr = 0#32 := rfl
@[simp] theorem resetRegisters_tm : (s.resetRegisters).tm = s.tm := rfl
@[simp] theorem resetRegisters_ym : (s.resetRegisters).ym = s.ym := rfl
@[simp] theorem resetRegisters_pending : (s.resetRegisters).pending = s.pending := rfl
@[simp] theorem resetRegisters_readData : (s.resetRegisters).readData = s.readData := rfl
@[simp] theorem resetRegisters_draws : (s.resetRegisters).draws = s.draws := rfl

/-! ### raiseFault -/

@[simp] theorem raiseFault_opa (c : Cause) (a : Nat) : (raiseFault c a s).opa = s.opa := rfl
@[simp] theorem raiseFault_opb (c : Cause) (a : Nat) : (raiseFault c a s).opb = s.opb := rfl
@[simp] theorem raiseFault_opc (c : Cause) (a : Nat) : (raiseFault c a s).opc = s.opc := rfl
@[simp] theorem raiseFault_opd (c : Cause) (a : Nat) : (raiseFault c a s).opd = s.opd := rfl
@[simp] theorem raiseFault_result (c : Cause) (a : Nat) : (raiseFault c a s).result = 0#32 := rfl
@[simp] theorem raiseFault_status (c : Cause) (a : Nat) : (raiseFault c a s).status = statusAfterFault c := rfl
@[simp] theorem raiseFault_faddr (c : Cause) (a : Nat) : (raiseFault c a s).faddr = word32 a := rfl
@[simp] theorem raiseFault_tm (c : Cause) (a : Nat) : (raiseFault c a s).tm = s.tm := rfl
@[simp] theorem raiseFault_ym (c : Cause) (a : Nat) : (raiseFault c a s).ym = s.ym := rfl
@[simp] theorem raiseFault_pending (c : Cause) (a : Nat) : (raiseFault c a s).pending = s.pending := rfl
@[simp] theorem raiseFault_readData (c : Cause) (a : Nat) : (raiseFault c a s).readData = s.readData := rfl
@[simp] theorem raiseFault_draws (c : Cause) (a : Nat) : (raiseFault c a s).draws = s.draws := rfl

/-! ### complete -/

@[simp] theorem complete_opa (r : Word) : (complete r s).opa = s.opa := rfl
@[simp] theorem complete_opb (r : Word) : (complete r s).opb = s.opb := rfl
@[simp] theorem complete_opc (r : Word) : (complete r s).opc = s.opc := rfl
@[simp] theorem complete_opd (r : Word) : (complete r s).opd = s.opd := rfl
@[simp] theorem complete_result (r : Word) : (complete r s).result = r := rfl
@[simp] theorem complete_status (r : Word) : (complete r s).status = statusAfterCompletion s.status := rfl
@[simp] theorem complete_faddr (r : Word) : (complete r s).faddr = 0#32 := rfl
@[simp] theorem complete_tm (r : Word) : (complete r s).tm = s.tm := rfl
@[simp] theorem complete_ym (r : Word) : (complete r s).ym = s.ym := rfl
@[simp] theorem complete_pending (r : Word) : (complete r s).pending = s.pending := rfl
@[simp] theorem complete_readData (r : Word) : (complete r s).readData = s.readData := rfl
@[simp] theorem complete_draws (r : Word) : (complete r s).draws = s.draws := rfl

/-! ### settle -/

@[simp] theorem settle_opa (tms yms : List Nat) : (settle tms yms s).opa = s.opa := rfl
@[simp] theorem settle_opb (tms yms : List Nat) : (settle tms yms s).opb = s.opb := rfl
@[simp] theorem settle_opc (tms yms : List Nat) : (settle tms yms s).opc = s.opc := rfl
@[simp] theorem settle_opd (tms yms : List Nat) : (settle tms yms s).opd = s.opd := rfl
@[simp] theorem settle_result (tms yms : List Nat) : (settle tms yms s).result = s.result := rfl
@[simp] theorem settle_status (tms yms : List Nat) : (settle tms yms s).status = s.status := rfl
@[simp] theorem settle_faddr (tms yms : List Nat) : (settle tms yms s).faddr = s.faddr := rfl
@[simp] theorem settle_pending (tms yms : List Nat) : (settle tms yms s).pending = s.pending := rfl
@[simp] theorem settle_readData (tms yms : List Nat) : (settle tms yms s).readData = s.readData := rfl
@[simp] theorem settle_tm (tms yms : List Nat) :
    (settle tms yms s).tm = s.tm.freeAt (Config.freeTrit (s.draws + 2)) tms := rfl
@[simp] theorem settle_ym (tms yms : List Nat) :
    (settle tms yms s).ym = s.ym.freeAt (Config.freeTryte (s.draws + 2)) yms := rfl
@[simp] theorem settle_draws (tms yms : List Nat) : (settle tms yms s).draws = s.draws + 3 := rfl

/-! ### withFetchWord -/

@[simp] theorem withFetchWord_opa (nbits w : Nat) : (s.withFetchWord nbits w).opa = s.opa := rfl
@[simp] theorem withFetchWord_opb (nbits w : Nat) : (s.withFetchWord nbits w).opb = s.opb := rfl
@[simp] theorem withFetchWord_opc (nbits w : Nat) : (s.withFetchWord nbits w).opc = s.opc := rfl
@[simp] theorem withFetchWord_opd (nbits w : Nat) : (s.withFetchWord nbits w).opd = s.opd := rfl
@[simp] theorem withFetchWord_result (nbits w : Nat) : (s.withFetchWord nbits w).result = s.result := rfl
@[simp] theorem withFetchWord_status (nbits w : Nat) : (s.withFetchWord nbits w).status = s.status := rfl
@[simp] theorem withFetchWord_faddr (nbits w : Nat) : (s.withFetchWord nbits w).faddr = s.faddr := rfl
@[simp] theorem withFetchWord_tm (nbits w : Nat) : (s.withFetchWord nbits w).tm = s.tm := rfl
@[simp] theorem withFetchWord_ym (nbits w : Nat) : (s.withFetchWord nbits w).ym = s.ym := rfl
@[simp] theorem withFetchWord_pending (nbits w : Nat) : (s.withFetchWord nbits w).pending = commandAction nbits w :: s.pending := rfl
@[simp] theorem withFetchWord_readData (nbits w : Nat) : (s.withFetchWord nbits w).readData = s.readData := rfl
@[simp] theorem withFetchWord_draws (nbits w : Nat) : (s.withFetchWord nbits w).draws = s.draws := rfl

/-! ### Updates that meet -/

theorem withPending_withPending (p q : List HostAction) : (s.withPending p).withPending q = s.withPending q := rfl

theorem withPending_self : s.withPending s.pending = s := rfl

theorem raiseFault_withPending (c : Cause) (a : Nat) (p : List HostAction) :
    raiseFault c a (s.withPending p) = (raiseFault c a s).withPending p := rfl

theorem complete_withPending (r : Word) (p : List HostAction) :
    complete r (s.withPending p) = (complete r s).withPending p := rfl

end Sys2Proof.Machine
end

