-- ==== Sys2Proof/Laws/Host.lean ====
section
/-! SUPPORT. One step: which action it performs, and the one shape every command's outcome has. -/

namespace Sys2Proof.Machine

theorem step_idle (s : State) (h : s.pending = []) : step s = .next s := by
  simp [step, hostStep, h]

theorem step_action (s : State) (act : HostAction) (rest : List HostAction) (h : s.pending = act :: rest) :
    step s = perform act (s.withPending rest) := by
  simp [step, hostStep, h]

theorem step_command (s : State) (w : Word) (rest : List HostAction) (h : s.pending = .writeReg 0 w :: rest) :
    step s = command w (s.withPending rest) := step_action s _ rest h

theorem command_legal (w : Word) (i : Instr) (s : State) (h : decodeWord w = .ok i) : command w s = exec i s := by
  simp [command, h]

theorem command_illegal (w : Word) (e : DecodeError) (s : State) (h : decodeWord w = .error e) :
    command w s = .next (raiseFault .illegalOp 0 s) := by
  simp [command, h]

/-! ## Runs -/

theorem run_zero (s : State) : Sys2Proof.core.run 0 s = .next s := rfl

/-- A run whose first step answers a next state goes on from there. -/
theorem run_next (k : Nat) (s t : State) (h : step s = .next t) :
    Sys2Proof.core.run (k + 1) s = Sys2Proof.core.run k t := by
  have h' : Sys2Proof.core.step s = .next t := h
  simp only [Host.Core.run, h']

theorem run_fault (k : Nat) (s : State) (r : Fault) (h : step s = .fault r) :
    Sys2Proof.core.run (k + 1) s = .fault r := by
  have h' : Sys2Proof.core.step s = .fault r := h
  simp only [Host.Core.run, h']

theorem run_refused (k : Nat) (s : State) (r : Refusal) (h : step s = .refused r) :
    Sys2Proof.core.run (k + 1) s = .refused r := by
  have h' : Sys2Proof.core.step s = .refused r := h
  simp only [Host.Core.run, h']

/-! ## How commands end -/

/-- Every command ends in one of two ways: a fault that only writes the report registers, or a completion that
writes RESULT and one of the two memories, whose size and canonical form it keeps (R169 to R171). -/
inductive CommandEnd (s : State) : State → Prop where
  | fault (c : Cause) (a : Nat) (hc : c ≠ .none) : CommandEnd s (raiseFault c a s)
  | result (r : Word) : CommandEnd s (complete r s)
  | tm (r : Word) (a : Nat) (vs : List TritCell) (ha : a + vs.length ≤ s.tm.size) :
      CommandEnd s (complete r (s.withTm (s.tm.writeAll a vs)))
  | ym (r : Word) (a : Nat) (vs : List TryteCode) (ha : a + vs.length ≤ s.ym.size) :
      CommandEnd s (complete r (s.withYm (s.ym.writeAll a vs)))

theorem runDecodeSeeing_end (checked used : Memory 8) (s : State) : CommandEnd s (runDecodeSeeing checked used s) := by
  rcases runDecodeSeeing_cases checked used s with ⟨h, _⟩ | ⟨src, dst, count, _, _, _, h⟩
  · rw [h]; exact .fault _ _ (by decide)
  · rw [h]
    rcases decodeSeeing_cases checked used src dst count s with ⟨h, _⟩ | ⟨_, _, ⟨i, _, h, _⟩ | ⟨h, _⟩⟩
    · rw [h]; exact .fault _ _ (by decide)
    · rw [h]; exact .fault _ _ (by decide)
    · rw [h]; exact .tm _ _ _ (by simpa)

theorem runEncodeSeeing_end (checked used : Memory 2) (s : State) : CommandEnd s (runEncodeSeeing checked used s) := by
  rcases runEncodeSeeing_cases checked used s with ⟨h, _⟩ | ⟨src, dst, len, _, _, _, h⟩
  · rw [h]; exact .fault _ _ (by decide)
  · rw [h]
    rcases encodeSeeing_cases checked used src dst len s with ⟨h, _⟩ | ⟨_, _, ⟨i, _, h, _⟩ | ⟨h, _⟩⟩
    · rw [h]; exact .fault _ _ (by decide)
    · rw [h]; exact .fault _ _ (by decide)
    · rw [h]; exact .ym _ _ _ (by rw [encodeTrits_length]; simpa)

theorem runAddSeeing_end (checked used : Memory 2) (s : State) : CommandEnd s (runAddSeeing checked used s) := by
  rcases runAddSeeing_cases checked used s with ⟨h, _⟩ | ⟨base, len, n, _, _, _, h⟩
  · rw [h]; exact .fault _ _ (by decide)
  · rw [h]
    rcases addSeeing_cases checked used base len n s with ⟨h, _⟩ | ⟨_, ⟨i, _, h, _⟩ | ⟨h, _⟩⟩
    · rw [h]; exact .fault _ _ (by decide)
    · rw [h]; exact .fault _ _ (by decide)
    · rw [h]; exact .tm _ _ _ (by simpa)

theorem runIncSeeing_end (tested used : Memory 2) (s : State) : CommandEnd s (runIncSeeing tested used s) := by
  rcases runIncSeeing_cases tested used s with ⟨h, _⟩ | ⟨base, len, _, _, h⟩
  · rw [h]; exact .fault _ _ (by decide)
  · rw [h]
    rcases incSeeing_cases tested used base len s with
      ⟨h, _⟩ | ⟨_, k, _, _, _, ⟨h, _⟩ | ⟨hk, ⟨h, _⟩ | ⟨h, _⟩ | ⟨h, _⟩⟩⟩
    · rw [h]; exact .fault _ _ (by decide)
    · rw [h]; exact .fault _ _ (by decide)
    · rw [h]; exact .fault _ _ (by decide)
    · rw [h]; exact .fault _ _ (by decide)
    · rw [h]; exact .tm _ _ _ (by simp; omega)

theorem runTteval_end (s : State) : CommandEnd s (runTteval s) := by
  rcases runTteval_cases s with ⟨h, _⟩ | ⟨x1, x2, _, _, h⟩
  · rw [h]; exact .fault _ _ (by decide)
  · rw [h]; exact .result _

theorem exec_end (i : Instr) (s : State) : ∃ t, exec i s = .next t ∧ CommandEnd s t := by
  cases i with
  | decode => exact ⟨_, rfl, runDecodeSeeing_end _ _ s⟩
  | encode => exact ⟨_, rfl, runEncodeSeeing_end _ _ s⟩
  | add => exact ⟨_, rfl, runAddSeeing_end _ _ s⟩
  | inc => exact ⟨_, rfl, runIncSeeing_end _ _ s⟩
  | tteval => exact ⟨_, rfl, runTteval_end s⟩

theorem runRacing_end (i : Instr) (tms yms : List Nat) (s : State) : CommandEnd s (runRacing i tms yms s) := by
  cases i with
  | decode => exact runDecodeSeeing_end _ _ s
  | encode => exact runEncodeSeeing_end _ _ s
  | add => exact runAddSeeing_end _ _ s
  | inc => exact runIncSeeing_end _ _ s
  | tteval => exact runTteval_end s

theorem command_end (w : Word) (s : State) : ∃ t, command w s = .next t ∧ CommandEnd s t := by
  cases h : decodeWord w with
  | ok i => rw [command_legal w i s h]; exact exec_end i s
  | error e => exact ⟨_, command_illegal w e s h, .fault _ _ (by decide)⟩

/-- The write windows of R184 lie inside their memories. -/
theorem cellsIn_fits (size : Nat) (window : Int × Int) (h : 0 < (cellsIn size window).2) :
    (cellsIn size window).1 + (cellsIn size window).2 ≤ size := by
  simp only [cellsIn] at h ⊢
  omega

end Sys2Proof.Machine
end

