-- ==== Sys2Proof/Laws/Pending.lean ====
section
/-! SUPPORT. No meaning and no host action looks at the host's remaining actions: performing one commutes with replacing
them. -/

namespace Sys2Proof.Machine

theorem decodeSeeing_withPending (checked used : Memory 8) (a b c : Nat) (s : State) (p : List HostAction) :
    decodeSeeing checked used a b c (s.withPending p) = (decodeSeeing checked used a b c s).withPending p := by
  unfold decodeSeeing
  simp only [withPending_ym, withPending_tm]
  by_cases h1 : s.ym.size < a + c
  · simp only [h1, if_true]; rfl
  by_cases h2 : s.tm.size < b + 3 * c
  · simp only [h1, h2, if_true, if_false]; rfl
  simp only [h1, h2, if_false]
  cases firstBad (fun c => !validTryte c) a (trytesAt checked a c) <;> rfl

theorem encodeSeeing_withPending (checked used : Memory 2) (a b c : Nat) (s : State) (p : List HostAction) :
    encodeSeeing checked used a b c (s.withPending p) = (encodeSeeing checked used a b c s).withPending p := by
  unfold encodeSeeing
  simp only [withPending_ym, withPending_tm]
  by_cases h1 : s.tm.size < a + c
  · simp only [h1, if_true]; rfl
  by_cases h2 : s.ym.size < b + groupCount c
  · simp only [h1, h2, if_true, if_false]; rfl
  simp only [h1, h2, if_false]
  cases firstBad (fun t => t == invalidTrit) a (tritsAt checked a c) <;> rfl

theorem addSeeing_withPending (checked used : Memory 2) (a b c : Nat) (s : State) (p : List HostAction) :
    addSeeing checked used a b c (s.withPending p) = (addSeeing checked used a b c s).withPending p := by
  unfold addSeeing
  simp only [withPending_tm]
  by_cases h1 : s.tm.size < a + b
  · simp only [h1, if_true]; rfl
  simp only [h1, if_false]
  cases firstBad (fun t => t == invalidTrit) a (tritsAt checked a b) <;> rfl

theorem incAt_withPending (used : Memory 2) (a b k : Nat) (s : State) (p : List HostAction) :
    incAt used a b k (s.withPending p) = (incAt used a b k s).withPending p := by
  unfold incAt
  by_cases h2 : k = b ∧ s.tm.size ≤ a + b
  · rw [if_pos h2, if_pos (c := k = b ∧ (s.withPending p).tm.size ≤ a + b) h2]; rfl
  rw [if_neg h2, if_neg (c := k = b ∧ (s.withPending p).tm.size ≤ a + b) h2]
  by_cases h3 : tRead used (a + k) = -2
  · rw [if_pos h3, if_pos h3]; rfl
  rw [if_neg h3, if_neg h3]
  by_cases h4 : k = b ∧ tRead used (a + k) = 1
  · rw [if_pos h4, if_pos h4]; rfl
  · rw [if_neg h4, if_neg h4]; rfl

theorem incSeeing_withPending (tested used : Memory 2) (a b : Nat) (s : State) (p : List HostAction) :
    incSeeing tested used a b (s.withPending p) = (incSeeing tested used a b s).withPending p := by
  unfold incSeeing
  simp only [withPending_tm, incAt_withPending]
  by_cases h1 : s.tm.size < a + b
  · simp only [h1, if_true]; rfl
  · simp only [h1, if_false]

theorem runDecodeSeeing_withPending (checked used : Memory 8) (s : State) (p : List HostAction) :
    runDecodeSeeing checked used (s.withPending p) = (runDecodeSeeing checked used s).withPending p := by
  simp only [runDecodeSeeing, withPending_opa, withPending_opb, withPending_opc]
  cases natOperand s.opa <;> cases natOperand s.opb <;> cases natOperand s.opc <;>
    simp only [decodeSeeing_withPending] <;> rfl

theorem runEncodeSeeing_withPending (checked used : Memory 2) (s : State) (p : List HostAction) :
    runEncodeSeeing checked used (s.withPending p) = (runEncodeSeeing checked used s).withPending p := by
  simp only [runEncodeSeeing, withPending_opa, withPending_opb, withPending_opc]
  cases natOperand s.opa <;> cases natOperand s.opb <;> cases natOperand s.opc <;>
    simp only [encodeSeeing_withPending] <;> rfl

theorem runAddSeeing_withPending (checked used : Memory 2) (s : State) (p : List HostAction) :
    runAddSeeing checked used (s.withPending p) = (runAddSeeing checked used s).withPending p := by
  simp only [runAddSeeing, withPending_opa, withPending_opd, withPending_opc]
  cases natOperand s.opa <;> cases natOperand s.opc <;> cases natOperand s.opd <;>
    simp only [addSeeing_withPending] <;> rfl

theorem runIncSeeing_withPending (tested used : Memory 2) (s : State) (p : List HostAction) :
    runIncSeeing tested used (s.withPending p) = (runIncSeeing tested used s).withPending p := by
  simp only [runIncSeeing, withPending_opa, withPending_opc]
  cases natOperand s.opa <;> cases natOperand s.opc <;> simp only [incSeeing_withPending] <;> rfl

theorem runTteval_withPending (s : State) (p : List HostAction) :
    runTteval (s.withPending p) = (runTteval s).withPending p := by
  simp only [runTteval, withPending_opa, withPending_opb]
  cases tritOperand s.opa <;> cases tritOperand s.opb <;> rfl

/-- A next state with the host's remaining actions replaced; a stop stays as it is. -/
def outcomeWithPending (p : List HostAction) : Host.Outcome State Fault Refusal → Host.Outcome State Fault Refusal
  | .next s => .next (s.withPending p)
  | .fault r => .fault r
  | .refused r => .refused r

theorem exec_withPending (i : Instr) (s : State) (p : List HostAction) :
    exec i (s.withPending p) = outcomeWithPending p (exec i s) := by
  cases i
  · exact congrArg Host.Outcome.next (runDecodeSeeing_withPending s.ym s.ym s p)
  · exact congrArg Host.Outcome.next (runEncodeSeeing_withPending s.tm s.tm s p)
  · exact congrArg Host.Outcome.next (runAddSeeing_withPending s.tm s.tm s p)
  · exact congrArg Host.Outcome.next (runIncSeeing_withPending s.tm s.tm s p)
  · exact congrArg Host.Outcome.next (runTteval_withPending s p)

theorem runRacing_withPending (i : Instr) (tms yms : List Nat) (s : State) (p : List HostAction) :
    runRacing i tms yms (s.withPending p) = (runRacing i tms yms s).withPending p := by
  cases i
  · exact runDecodeSeeing_withPending _ _ s p
  · exact runEncodeSeeing_withPending _ _ s p
  · exact runAddSeeing_withPending _ _ s p
  · exact runIncSeeing_withPending _ _ s p
  · exact runTteval_withPending s p

theorem raceDuring_withPending (w : Word) (tms yms : List Nat) (s : State) (p : List HostAction) :
    raceDuring w tms yms (s.withPending p) = (raceDuring w tms yms s).withPending p := by
  unfold raceDuring
  cases decodeWord w with
  | error e => rfl
  | ok i => simp only [runRacing_withPending]; rfl

theorem racingCommand_withPending (w : Word) (tms yms : List Nat) (s : State) (p : List HostAction) :
    racingCommand w tms yms (s.withPending p) = outcomeWithPending p (racingCommand w tms yms s) := by
  simp only [racingCommand, withPending_tm, withPending_ym, raceDuring_withPending]
  cases firstAbsent s.tm.size tms <;> cases firstAbsent s.ym.size yms <;> rfl

theorem readRegister_withPending (n : Nat) (s : State) (p : List HostAction) :
    readRegister n (s.withPending p) = readRegister n s := by
  unfold readRegister
  split <;> rfl

theorem tmWrites_withPending (i : Instr) (s : State) (p : List HostAction) :
    tmWrites i (s.withPending p) = tmWrites i s := by
  cases i <;> rfl

theorem ymWrites_withPending (i : Instr) (s : State) (p : List HostAction) :
    ymWrites i (s.withPending p) = ymWrites i s := by
  cases i <;> rfl

end Sys2Proof.Machine
end

