-- ==== Sys2Proof/Laws/PerInstr.lean ====
section
/-! SUPPORT. Statements for every instruction, one lemma per constructor of `Instr`. -/

namespace Sys2Proof.Laws

/-- An instruction is well formed, and its command word is legal and fits the row of the opcode table: RSV is 0 and
OP is the operation's own (R70, R72). -/
def CommandWord.Statement (i : Instr) : Prop :=
  i.wf = true ∧ commandWordLegal (encode i) = true ∧ rsvField (encode i) = 0#29 ∧ opField (encode i) = opCode i

theorem CommandWord.decode : CommandWord.Statement .decode := by unfold CommandWord.Statement; decide

theorem CommandWord.encode : CommandWord.Statement .encode := by unfold CommandWord.Statement; decide

theorem CommandWord.add : CommandWord.Statement .add := by unfold CommandWord.Statement; decide

theorem CommandWord.inc : CommandWord.Statement .inc := by unfold CommandWord.Statement; decide

theorem CommandWord.tteval : CommandWord.Statement .tteval := by unfold CommandWord.Statement; decide

end Sys2Proof.Laws
end

