-- ==== Sys2Proof/Laws/Races.lean ====
section
/-! SUPPORT. What a race does (R64): the cells a pass sees, the cells left free, and that a race on no cell is none. -/

namespace Sys2Proof.Machine

/-! ## Cells with free draws -/

@[simp] theorem freeAt_size {w : Nat} (free : Nat → BitVec w) (raced : List Nat) (m : Memory w) :
    (m.freeAt free raced).size = m.size := by
  induction raced with
  | nil => rfl
  | cons a rest ih => exact ih

/-- All that freeing cells does: each listed cell holds its draw, every other cell keeps its value. -/
theorem read_freeAt {w : Nat} (p free : Nat → BitVec w) (raced : List Nat) (m : Memory w) (b : Nat) :
    (m.freeAt free raced).read p b = if b ∈ raced then free b else m.read p b := by
  induction raced with
  | nil => rfl
  | cons a rest ih =>
    rw [Memory.freeAt, read_write, ih]
    by_cases h : b = a
    · subst h; simp
    · simp [h]

theorem freeAt_wf {w : Nat} (free : Nat → BitVec w) (raced : List Nat) (m : Memory w) (h : m.wf = true)
    (hin : ∀ a ∈ raced, a < m.size) : (m.freeAt free raced).wf = true := by
  induction raced with
  | nil => exact h
  | cons a rest ih =>
    exact write_wf _ _ _ (ih fun b hb => hin b (List.mem_cons_of_mem _ hb))
      (by rw [freeAt_size]; exact hin a List.mem_cons_self)

theorem readTrit_tmSeen (pass : Nat) (raced : List Nat) (s : State) (a : Nat) :
    readTrit (tmSeen pass raced s) a =
      if a ∈ raced then Config.freeTrit (s.draws + pass) a else readTrit s.tm a :=
  read_freeAt _ _ _ _ _

theorem readTryte_ymSeen (pass : Nat) (raced : List Nat) (s : State) (a : Nat) :
    readTryte (ymSeen pass raced s) a =
      if a ∈ raced then Config.freeTryte (s.draws + pass) a else readTryte s.ym a :=
  read_freeAt _ _ _ _ _

theorem readTryte_ymLookedUp (raced : List Nat) (s : State) (a : Nat) :
    readTryte (ymLookedUp raced s) a = if a ∈ raced then lookedUp (s.draws + 1) a else readTryte s.ym a :=
  read_freeAt _ _ _ _ _

/-- The row a racing DECODE writes from: the read code's own where it has one, else a free one. -/
theorem alphaIndex_lookedUp (draw a : Nat) :
    alphaIndex (lookedUp draw a) =
      if validTryte (Config.freeTryte draw a) then alphaIndex (Config.freeTryte draw a)
      else (Config.freeRow draw a).val := by
  unfold lookedUp
  split
  · rfl
  · have h : ∀ r : Fin 27, alphaIndex (alphaAt r.val) = r.val := by decide
    exact h _

/-! ## Addresses -/

theorem firstAbsent_eq_none (size : Nat) (cells : List Nat) :
    firstAbsent size cells = none ↔ ∀ a ∈ cells, a < size := by
  induction cells with
  | nil => simp [firstAbsent]
  | cons a rest ih =>
    simp only [firstAbsent, List.forall_mem_cons, ← ih]
    by_cases h : size ≤ a
    · simp [h]
    · simp [h]; omega

theorem firstAbsent_eq_some (size a : Nat) (cells : List Nat) (h : firstAbsent size cells = some a) :
    a ∈ cells ∧ size ≤ a := by
  induction cells with
  | nil => cases h
  | cons b rest ih =>
    simp only [firstAbsent] at h
    split at h
    · cases h; exact ⟨List.mem_cons_self, by assumption⟩
    · exact ⟨List.mem_cons_of_mem _ (ih h).1, (ih h).2⟩

/-! ## Racing commands -/

/-- With no raced cell only the model's count of draws moves. -/
theorem settle_nil (s : State) : settle [] [] s = { s with draws := s.draws + 3 } := rfl

/-- A race on no cell leaves the meaning as it is (R64). -/
theorem exec_runRacing (i : Instr) (s : State) : exec i s = .next (runRacing i [] [] s) := by
  cases i <;> rfl

/-- A racing command on cells that exist answers a next state. -/
theorem racingCommand_next (w : Word) (tms yms : List Nat) (s : State) (ht : ∀ a ∈ tms, a < s.tm.size)
    (hy : ∀ a ∈ yms, a < s.ym.size) : racingCommand w tms yms s = .next (raceDuring w tms yms s) := by
  simp only [racingCommand, (firstAbsent_eq_none _ _).2 ht, (firstAbsent_eq_none _ _).2 hy]

/-- How a racing command ends: as some command ends, and then with the raced cells holding free draws. -/
theorem raceDuring_end (w : Word) (tms yms : List Nat) (s : State) :
    ∃ t, CommandEnd s t ∧ raceDuring w tms yms s = settle tms yms t := by
  unfold raceDuring
  cases decodeWord w with
  | error e => exact ⟨_, .fault _ _ (by decide), rfl⟩
  | ok i => exact ⟨_, runRacing_end i tms yms s, rfl⟩

end Sys2Proof.Machine
end

