-- ==== Sys2Proof/Tests/Slice0.lean ====
section
/-! SUPPORT. Tests. The expected values of the `test_` theorems are those of `spec/95_test_vectors.md` and of the
encodings of `30_encoding.md`; the `witness_` theorems show, for each obligation with hypotheses, a concrete state and
operands that meet all of them together, at the boundary values of each clause. -/

namespace Sys2Proof.Tests

open Sys2Proof Sys2Proof.Machine

/-! ## Helpers -/

/-- TM holding exactly these trit values (or -2 codes) from address 0. -/
def tmOf (vs : List Int) : Memory 2 := Memory.writeAll { size := vs.length, cells := [] } 0 (vs.map tritCell)

/-- YM holding exactly these codes from address 0. -/
def ymOf (cs : List Nat) : Memory 8 :=
  Memory.writeAll { size := cs.length, cells := [] } 0 (cs.map fun c => BitVec.ofNat 8 c)

/-- Reset registers but for the operands, and the given memories. -/
def sample (tm : List Int) (ym : List Nat) (a b c d : Int) : State where
  opa := word32 a
  opb := word32 b
  opc := word32 c
  opd := word32 d
  result := 0#32
  status := 0#32
  faddr := 0#32
  tm := tmOf tm
  ym := ymOf ym
  pending := []
  readData := []
  draws := 0

/-- A small machine whose host has these actions to come. -/
def hostAbout (acts : List HostAction) : State := (sample [1, 0, 0] [0x41] 0 0 1 0).withPending acts

/-- The outcome is a next state of which the check holds. -/
def endsWith (o : Host.Outcome State Fault Refusal) (check : State → Bool) : Bool :=
  match o with
  | .next t => check t
  | .fault _ => false
  | .refused _ => false

/-! ## WellFormed: each check refuses an ill-formed term (R78, R73) -/

theorem test_wf_decode_src : (AsmLine.decode 2147483648 0 0).wf = false := by decide
theorem test_wf_decode_dst : (AsmLine.decode 0 (-2147483649) 0).wf = false := by decide
theorem test_wf_decode_count : (AsmLine.decode 0 0 2147483648).wf = false := by decide
theorem test_wf_encode_src : (AsmLine.encode (-2147483649) 0 0).wf = false := by decide
theorem test_wf_encode_dst : (AsmLine.encode 0 2147483648 0).wf = false := by decide
theorem test_wf_encode_len : (AsmLine.encode 0 0 (-2147483649)).wf = false := by decide
theorem test_wf_add_base : (AsmLine.add 2147483648 0 0).wf = false := by decide
theorem test_wf_add_len : (AsmLine.add 0 (-2147483649) 0).wf = false := by decide
theorem test_wf_add_n : (AsmLine.add 0 0 2147483648).wf = false := by decide
theorem test_wf_inc_base : (AsmLine.inc (-2147483649) 0).wf = false := by decide
theorem test_wf_inc_len : (AsmLine.inc 0 2147483648).wf = false := by decide
theorem test_wf_tteval_x1 : (AsmLine.tteval 2147483648 0).wf = false := by decide
theorem test_wf_tteval_x2 : (AsmLine.tteval 0 (-2147483649)).wf = false := by decide
theorem test_wf_range_ends : (AsmLine.inc (-2147483648) 2147483647).wf = true := by decide

theorem test_wf_illegal_words :
    [0x00000000#32, 0x00000006#32, 0x00000007#32, 0x00000008#32, 0x00000009#32, 0x80000001#32, 0x00000105#32].all
      (fun w => !commandWordLegal w) = true := by decide

/-! ## Decoding: words written out from R70 and R72 -/

theorem test_decode_word_decode :
    decodeWord (0b00000000000000000000000000000#29 ++ 0b001#3) = .ok .decode ∧
      decodeTableWord 32 0x00000001 = some .decode := by decide
theorem test_decode_word_encode :
    decodeWord (0b00000000000000000000000000000#29 ++ 0b010#3) = .ok .encode ∧
      decodeTableWord 32 0x00000002 = some .encode := by decide
theorem test_decode_word_add :
    decodeWord (0b00000000000000000000000000000#29 ++ 0b011#3) = .ok .add ∧
      decodeTableWord 32 0x00000003 = some .add := by decide
theorem test_decode_word_inc :
    decodeWord (0b00000000000000000000000000000#29 ++ 0b100#3) = .ok .inc ∧
      decodeTableWord 32 0x00000004 = some .inc := by decide
theorem test_decode_word_tteval :
    decodeWord (0b00000000000000000000000000000#29 ++ 0b101#3) = .ok .tteval ∧
      decodeTableWord 32 0x00000005 = some .tteval := by decide

/-- Section 2.6 of the vectors. -/
theorem test_decode_illegal_words :
    [0x00000000, 0x00000006, 0x00000007, 0x00000008, 0x00000009, 0x80000001, 0x00000105].all
      (fun n => decodeTableWord 32 n == none) = true := by decide

theorem test_decode_reserved_op : decodeWord 0x00000007#32 = .error (.reservedOp 0b111#3) := by rfl
theorem test_decode_reserved_bits : decodeWord 0x00000009#32 = .error (.reservedBitsSet 1#29) := by rfl

/-! ## Assembler text (R78) -/

theorem test_parse_program_line : parseLine ['D', 'E', 'C', 'O', 'D', 'E', ' ', '0', ',', ' ', '0', ',', ' ', '3'] =
    some (.decode 0 0 3) := by decide
theorem test_parse_negative_and_case :
    parseLine ['t', 't', 'E', 'v', 'a', 'l', ' ', '0', ',', '-', '1', ' ', ';', 'x'] = some (.tteval 0 (-1)) := by decide
theorem test_parse_hexadecimal :
    parseLine ['I', 'N', 'C', ' ', '0', 'x', '1', 'F', ',', '2'] = some (.inc 31 2) := by decide
theorem test_parse_wrong_operand_count : parseLine ['A', 'D', 'D', ' ', '1', ',', '2'] = none := by decide

/-! ## The word placed for the next step runs (R70) -/

theorem test_fetch_decode : ∃ t, step (State.reset.withFetchWord 32 1) = .next t := ⟨_, rfl⟩
theorem test_fetch_encode : ∃ t, step (State.reset.withFetchWord 32 2) = .next t := ⟨_, rfl⟩
theorem test_fetch_add : ∃ t, step (State.reset.withFetchWord 32 3) = .next t := ⟨_, rfl⟩
theorem test_fetch_inc : ∃ t, step (State.reset.withFetchWord 32 4) = .next t := ⟨_, rfl⟩

/-- TTEVAL 0, 0 right after reset, the source's example S4: RESULT is 0xFFFFFFFF. -/
theorem test_fetch_tteval :
    step (State.reset.withFetchWord 32 5) = .next { State.reset with result := 0xFFFFFFFF#32 } := rfl

/-! ## Vectors of section 2, one step each -/

/-- 2.1 "dst not a multiple of 3": YM = GO. -/
theorem test_decode_go :
    endsWith (exec .decode (sample [0, 0, 0, 0, 0, 0, 0, 0] [0x47, 0x4F] 0 1 2 0)) (fun t =>
      cellValues t.tm 0 8 == [0, 1, -1, 1, 0, -1, -1, 0] && t.status == 0#32 && t.faddr == 0#32) = true := by decide

/-- 2.1 "`@` (0x40) is invalid". -/
theorem test_decode_invalid_tryte :
    endsWith (exec .decode (sample [0, 0, 0, 0, 0, 0] [0x41, 0x40] 0 0 2 0)) (fun t =>
      t.tm == tmOf [0, 0, 0, 0, 0, 0] && t.status == 0x00000014#32 && t.faddr == 1#32) = true := by decide

/-- 2.2 "len 5: groups [0,1,-1] = -6 and [-1,1] = 2": YM = UB. -/
theorem test_encode_partial_group :
    endsWith (exec .encode (sample [0, 1, -1, -1, 1] [0x39, 0x39] 0 0 5 0)) (fun t =>
      trytesAt t.ym 0 2 == [0x55#8, 0x42#8] && t.status == 0#32 && t.result == 0#32) = true := by decide

/-- 2.2 "invalid code -2 at address 1". -/
theorem test_encode_invalid_trit :
    endsWith (exec .encode (sample [1, -2, 1] [0x41] 0 0 3 0)) (fun t =>
      t.ym == ymOf [0x41] && t.status == 0x00000015#32 && t.faddr == 1#32) = true := by decide

/-- 2.3 "13 + 13 = 26 = -1 + 27". -/
theorem test_add_carry :
    endsWith (exec .add (sample [1, 1, 1] [0x39] 0 0 3 13)) (fun t =>
      cellValues t.tm 0 3 == [-1, 0, 0] && t.result == 1#32 && t.status == 0#32) = true := by decide

/-- 2.3 "largest n". -/
theorem test_add_largest :
    endsWith (exec .add (sample [0, 0, 0] [0x39] 0 0 3 2147483647)) (fun t =>
      cellValues t.tm 0 3 == [1, 0, 1] && t.result == 0x04BDA12F#32) = true := by decide

/-- 2.4 "window at top 13, boundary 0 to 1". -/
theorem test_inc_boundary :
    endsWith (exec .inc (sample [1, 1, 1, 0] [0x39] 0 0 3 0)) (fun t =>
      cellValues t.tm 0 4 == [-1, -1, -1, 1] && t.status == 0#32 && t.result == 0#32) = true := by decide

/-- 2.4 "boundary cell 1". -/
theorem test_inc_overflow :
    endsWith (exec .inc (sample [1, 1, 1, 1] [0x39] 0 0 3 0)) (fun t =>
      t.tm == tmOf [1, 1, 1, 1] && t.status == 0x00000016#32 && t.faddr == 3#32) = true := by decide

/-- 2.5 asymmetry check: TTEVAL 0, -1 gives 1. -/
theorem test_tteval_asymmetry :
    endsWith (exec .tteval (sample [0] [0x39] 0 (-1) 0 0)) (fun t =>
      t.result == 0x00000001#32 && t.status == 0#32) = true := by decide

/-- 2.5 out of domain: x1 = -2^31. -/
theorem test_tteval_domain :
    endsWith (exec .tteval (sample [0] [0x39] (-2147483648) 0 0 0)) (fun t =>
      t.result == 0#32 && t.status == 0x00000012#32) = true := by decide

/-! ## Vectors of section 2.7 -/

/-- "write 0x12345678 to STATUS, then read it: the value before the write". -/
theorem test_status_write_ignored :
    endsWith (step (hostAbout [.writeReg 6 0x12345678#32])) (fun t => t.status == 0#32) = true := by decide

/-- "read CMD": 0x00000000. -/
theorem test_cmd_reads_zero :
    endsWith (step (hostAbout [.readReg 0])) (fun t => t.readData == [0#32]) = true := by decide

/-- R51, R50: ADD's window [-1, 2) has the cells 0 and 1. -/
theorem test_window_negative_base : tmWrites .add (sample [0, 0, 0] [0x39] (-1) 0 3 0) = (0, 2) := by decide

/-- R64, R105: an ENCODE whose check pass reads 0 and whose write pass reads -2 in the same cell completes: v = -2 + 27
is index 25, `Y` (R30). -/
theorem test_encode_reads_twice :
    endsWith (.next (runEncodeSeeing (tmOf [0]) (tmOf [-2]) (sample [0] [0x39] 0 0 1 0))) (fun t =>
      trytesAt t.ym 0 1 == [0x59#8] && t.status == 0#32 && t.result == 0#32) = true := by decide

/-- R64, R101: a DECODE whose check pass reads `9` and whose write pass reads `M` in the same cell writes the row of `M`,
(1,1,1) (R31). -/
theorem test_decode_reads_twice :
    endsWith (.next (runDecodeSeeing (ymOf [0x39]) (ymOf [0x4D]) (sample [0, 0, 0] [0x39] 0 0 1 0))) (fun t =>
      (tritsAt t.tm 0 3).map tritValue == [1, 1, 1] && t.status == 0#32 && t.result == 0#32) = true := by decide

/-! ## Witnesses: command words and steps -/

theorem witness_EncodeThenDecodeGivesInstruction : Instr.tteval.wf = true := by decide

/-- For each way a word can be illegal, at the ends of the reserved ranges. -/
theorem witness_IllegalWordFaults :
    (hostAbout [.writeReg 0 0x00000000#32]).pending = .writeReg 0 0x00000000#32 :: [] ∧
      (0x00000000#32).extractLsb' 0 3 = 0b000#3 ∧
    (hostAbout [.writeReg 0 0x00000006#32]).pending = .writeReg 0 0x00000006#32 :: [] ∧
      (0x00000006#32).extractLsb' 0 3 = 0b110#3 ∧
    (hostAbout [.writeReg 0 0x00000007#32]).pending = .writeReg 0 0x00000007#32 :: [] ∧
      (0x00000007#32).extractLsb' 0 3 = 0b111#3 ∧
    (hostAbout [.writeReg 0 0x00000009#32]).pending = .writeReg 0 0x00000009#32 :: [] ∧
      (0x00000009#32).extractLsb' 3 29 ≠ 0#29 ∧
    (hostAbout [.writeReg 0 0x80000001#32]).pending = .writeReg 0 0x80000001#32 :: [] ∧
      (0x80000001#32).extractLsb' 3 29 ≠ 0#29 := by decide

theorem witness_StepRunsDecodedCommand :
    (hostAbout [.writeReg 0 0x00000003#32, .readReg 5]).pending = .writeReg 0 0x00000003#32 :: [.readReg 5] ∧
      decodeWord 0x00000003#32 = .ok .add ∧ Instr.add.wf = true := by decide

theorem witness_StepWaitsWithoutHostAction : (hostAbout []).pending = [] := by decide

/-- Every interaction of the table, at the highest addresses that exist. -/
theorem witness_InterfaceActionsNeverStop :
    (∀ act, (hostAbout [act]).pending = act :: []) ∧
    InInterface (hostAbout []) (.writeReg 0 0x00000004#32) ∧ InInterface (hostAbout []) (.readReg 8) ∧
    InInterface (hostAbout []) (.prepareTrit 2 0b10#2) ∧ InInterface (hostAbout []) (.prepareTryte 0 0xFF#8) ∧
    InInterface (hostAbout []) .reset ∧ InInterface (hostAbout []) (.resetDuringCommand 1#32) ∧
    InInterface (hostAbout []) (.raceDuringCommand 2#32 [2, 0] [0]) ∧
    InInterface (hostAbout []) (.raceTrit 2) ∧ InInterface (hostAbout []) (.raceTryte 0) :=
  ⟨fun _ => rfl, trivial, trivial, by show 2 < 3; decide, by show 0 < 1; decide, trivial, trivial,
    ⟨by decide, by decide⟩, by show 2 < 3; decide, by show 0 < 1; decide⟩

/-- For each of the eight registers and the first number past them. -/
theorem witness_HostReadReturnsRegister :
    ∀ n ∈ [0, 1, 2, 3, 4, 5, 6, 7, 8], (hostAbout [.readReg n]).pending = .readReg n :: [] := by decide

/-- For OPA, OPB, OPC and OPD. -/
theorem witness_HostWriteStoresOperand :
    ∀ n ∈ [1, 2, 3, 4], (hostAbout [.writeReg n 0x12345678#32]).pending = .writeReg n 0x12345678#32 :: [] := by decide

/-- At the lowest number it speaks of and at the first number that is no register. -/
theorem witness_HostWriteToOtherRegistersIgnored :
    5 ≤ 5 ∧ (hostAbout [.writeReg 5 7#32]).pending = .writeReg 5 7#32 :: [] ∧
    5 ≤ 8 ∧ (hostAbout [.writeReg 8 7#32]).pending = .writeReg 8 7#32 :: [] := by decide

theorem witness_HostResetKeepsMemories : (hostAbout [.reset]).pending = .reset :: [] := by decide

/-- For a legal word and for an illegal one. -/
theorem witness_ResetDuringCommandFreesWriteWindow :
    ((hostAbout [.resetDuringCommand 1#32]).pending = .resetDuringCommand 1#32 :: [] ∧
      decodeWord 1#32 = .ok .decode ∧ tmWrites .decode (hostAbout []) = (0, 3)) ∧
    ((hostAbout [.resetDuringCommand 6#32]).pending = .resetDuringCommand 6#32 :: [] ∧
      decodeWord 6#32 = .error (.reservedOp 0b110#3)) := ⟨by decide, ⟨rfl, rfl⟩⟩

/-- At the last cell of each memory. -/
theorem witness_PreparationWritesOneCell :
    ((hostAbout [.prepareTrit 2 0b10#2]).pending = .prepareTrit 2 0b10#2 :: [] ∧ 2 < (hostAbout []).tm.size) ∧
    ((hostAbout [.prepareTryte 0 0xFF#8]).pending = .prepareTryte 0 0xFF#8 :: [] ∧ 0 < (hostAbout []).ym.size) := by
  decide

/-- At the first address past the end of each memory, for a preparation and for each form of race. -/
theorem witness_AbsentCellStops :
    ((hostAbout []).tm.size ≤ 3 ∧ (hostAbout [.prepareTrit 3 1#2]).pending = .prepareTrit 3 1#2 :: [] ∧
      (hostAbout [.raceTrit 3]).pending = .raceTrit 3 :: []) ∧
    ((hostAbout []).ym.size ≤ 1 ∧ (hostAbout [.prepareTryte 1 1#8]).pending = .prepareTryte 1 1#8 :: [] ∧
      (hostAbout [.raceTryte 1]).pending = .raceTryte 1 :: []) ∧
    ((hostAbout [.raceDuringCommand 3#32 [0, 3] []]).pending = .raceDuringCommand 3#32 [0, 3] [] :: [] ∧
      (∃ a ∈ [0, 3], (hostAbout []).tm.size ≤ a)) ∧
    ((hostAbout [.raceDuringCommand 3#32 [2] [1]]).pending = .raceDuringCommand 3#32 [2] [1] :: [] ∧
      (∀ a ∈ [2], a < (hostAbout []).tm.size) ∧ (∃ a ∈ [1], (hostAbout []).ym.size ≤ a)) := by decide

theorem witness_ExcludedAccessIsRefused :
    (hostAbout [.narrowAccess 6]).pending = .narrowAccess 6 :: [] ∧
    (hostAbout [.accessDuringCommand]).pending = .accessDuringCommand :: [] := by decide

theorem witness_RacedCellHoldsFreeValue :
    ((hostAbout [.raceTrit 2]).pending = .raceTrit 2 :: [] ∧ 2 < (hostAbout []).tm.size) ∧
    ((hostAbout [.raceTryte 0]).pending = .raceTryte 0 :: [] ∧ 0 < (hostAbout []).ym.size) := by decide

/-! ## Witnesses: DECODE -/

/-- A window that ends at the end of both memories, and an empty one at the end of both. -/
theorem witness_DecodeCompletes :
    DecodeReady (sample [0, 0, 0, 0, 0, 0, 0] [0x47, 0x4F] 0 1 2 0) 0 1 2 ∧
    DecodeReady (sample [1, 1, 1, 1] [0x41, 0x42] 2 4 0 0) 2 4 0 := by
  unfold DecodeReady; decide

theorem witness_DecodeRunsPseudocodeLoop :
    DecodeReady (sample [0, 0, 0, 0, 0, 0, 0] [0x47, 0x4F] 0 1 2 0) 0 1 2 := by
  unfold DecodeReady; decide

/-- Each operand at -1; each window one cell too long; an invalid code in the first cell and in the last. -/
theorem witness_DecodeFaultsByPriority :
    (sample [0, 0, 0] [0x41] (-1) 0 1 0).opa.toInt < 0 ∧ (sample [0, 0, 0] [0x41] 0 (-1) 1 0).opb.toInt < 0 ∧
    (sample [0, 0, 0] [0x41] 0 0 (-1) 0).opc.toInt < 0 ∧
    (∃ s : State, s.opa.toInt = (1 : Nat) ∧ s.opb.toInt = (0 : Nat) ∧ s.opc.toInt = (2 : Nat) ∧ s.ym.size < 1 + 2) ∧
    (∃ s : State, s.opa.toInt = (0 : Nat) ∧ s.opb.toInt = (1 : Nat) ∧ s.opc.toInt = (2 : Nat) ∧
      s.tm.size < 1 + 3 * 2) ∧
    (∃ s : State, s.opa.toInt = (0 : Nat) ∧ s.opb.toInt = (0 : Nat) ∧ s.opc.toInt = (2 : Nat) ∧
      0 + 2 ≤ s.ym.size ∧ 0 + 3 * 2 ≤ s.tm.size ∧ validTryte (readTryte s.ym (0 + 0)) = false) ∧
    (∃ s : State, s.opa.toInt = (0 : Nat) ∧ s.opb.toInt = (0 : Nat) ∧ s.opc.toInt = (2 : Nat) ∧
      0 + 2 ≤ s.ym.size ∧ 0 + 3 * 2 ≤ s.tm.size ∧ validTryte (readTryte s.ym (0 + 1)) = false ∧
      ∀ j, j < 1 → validTryte (readTryte s.ym (0 + j)) = true) :=
  ⟨by decide, by decide, by decide, ⟨sample [0, 0, 0, 0, 0, 0] [0x41, 0x42] 1 0 2 0, by decide⟩,
    ⟨sample [0, 0, 0, 0, 0, 0] [0x41, 0x42] 0 1 2 0, by decide⟩,
    ⟨sample [0, 0, 0, 0, 0, 0] [0x61, 0x00] 0 0 2 0, by decide⟩,
    ⟨sample [0, 0, 0, 0, 0, 0] [0x41, 0x40] 0 0 2 0, by decide⟩⟩

/-- The cell above the window of a DECODE that completes. -/
theorem witness_DecodeWritesOnlyDestination :
    ∃ s t : State, exec .decode s = .next t ∧ errField t.status = 0#4 ∧
      s.opb.toInt = (0 : Nat) ∧ s.opc.toInt = (1 : Nat) ∧ (3 < 0 ∨ 0 + 3 * 1 ≤ 3) :=
  ⟨sample [0, 0, 0, 1] [0x5A] 0 0 1 0, _, rfl, by decide⟩

/-! ## Witnesses: ENCODE and the codec's laws -/

/-- A whole group, a partial one, and an empty window at the end of both memories. -/
theorem witness_EncodeCompletes :
    EncodeReady (sample [1, 0, 0] [0x39] 0 0 3 0) 0 0 3 ∧
    EncodeReady (sample [0, 1, -1, -1, 1] [0x39, 0x39] 0 0 5 0) 0 0 5 ∧
    EncodeReady (sample [1, 1, 1] [0x41] 3 1 0 0) 3 1 0 := by
  unfold EncodeReady IsTrit; decide

theorem witness_EncodeRunsPseudocodeLoop :
    EncodeReady (sample [0, 1, -1, -1, 1] [0x39, 0x39] 0 0 5 0) 0 0 5 := by
  unfold EncodeReady IsTrit; decide

theorem witness_EncodeFaultsByPriority :
    (sample [0, 0, 0] [0x41] (-1) 0 1 0).opa.toInt < 0 ∧ (sample [0, 0, 0] [0x41] 0 (-1) 1 0).opb.toInt < 0 ∧
    (sample [0, 0, 0] [0x41] 0 0 (-1) 0).opc.toInt < 0 ∧
    (∃ s : State, s.opa.toInt = (1 : Nat) ∧ s.opb.toInt = (0 : Nat) ∧ s.opc.toInt = (3 : Nat) ∧ s.tm.size < 1 + 3) ∧
    (∃ s : State, s.opa.toInt = (0 : Nat) ∧ s.opb.toInt = (0 : Nat) ∧ s.opc.toInt = (4 : Nat) ∧
      s.ym.size < 0 + (4 + 2) / 3) ∧
    (∃ s : State, s.opa.toInt = (0 : Nat) ∧ s.opb.toInt = (0 : Nat) ∧ s.opc.toInt = (3 : Nat) ∧
      0 + 3 ≤ s.tm.size ∧ 0 + (3 + 2) / 3 ≤ s.ym.size ∧ tRead s.tm (0 + 0) = -2) ∧
    (∃ s : State, s.opa.toInt = (0 : Nat) ∧ s.opb.toInt = (0 : Nat) ∧ s.opc.toInt = (3 : Nat) ∧
      0 + 3 ≤ s.tm.size ∧ 0 + (3 + 2) / 3 ≤ s.ym.size ∧ tRead s.tm (0 + 2) = -2 ∧
      ∀ l, l < 2 → tRead s.tm (0 + l) ≠ -2) :=
  ⟨by decide, by decide, by decide, ⟨sample [0, 0, 0] [0x41] 1 0 3 0, by decide⟩,
    ⟨sample [1, 1, 1, 1] [0x41] 0 0 4 0, by decide⟩,
    ⟨sample [-2, -2, 1] [0x41] 0 0 3 0, by decide⟩,
    ⟨sample [1, 0, -2] [0x41] 0 0 3 0, by decide⟩⟩

/-- The last group of a window, partial, at the least sum its trits allow. -/
theorem witness_EncodeIndexInRange :
    (∀ j, j < 5 → IsTrit (tmOf [-1, -1, -1, -1, -1]) (0 + j)) ∧ 1 < (5 + 2) / 3 := by
  unfold IsTrit; decide

/-- An ENCODE that replaces an invalid code. -/
theorem witness_CommandsWriteOnlyValidCodes :
    ∃ s t : State, exec .encode s = .next t ∧ validTryte (readTryte s.ym 0) = false ∧
      validTryte (readTryte t.ym 0) = true :=
  ⟨sample [1, 0, 0] [0x00] 0 0 3 0, _, rfl, by decide⟩

/-- All windows end at the ends of the memories. -/
theorem witness_TryteRoundTrip :
    ∃ s : State, s.pending = expandProgram [.decode (0 : Nat) (1 : Nat) (2 : Nat),
        .encode (1 : Nat) (1 : Nat) (3 * 2 : Nat)] ∧
      s.tm.size ≤ Config.maxCells ∧ s.ym.size ≤ Config.maxCells ∧
      0 + 2 ≤ s.ym.size ∧ 1 + 3 * 2 ≤ s.tm.size ∧ 1 + 2 ≤ s.ym.size ∧
      ∀ i, i < 2 → validTryte (readTryte s.ym (0 + i)) = true :=
  ⟨(sample [0, 0, 0, 0, 0, 0, 0] [0x47, 0x4F, 0x39] 0 0 0 0).withPending
      (expandProgram [.decode 0 1 2, .encode 1 1 6]), by decide⟩

/-- A partial final group. -/
theorem witness_TritRoundTrip :
    ∃ s : State, s.pending = expandProgram [.encode (0 : Nat) (0 : Nat) (5 : Nat),
        .decode (0 : Nat) (1 : Nat) ((5 + 2) / 3 : Nat)] ∧
      s.tm.size ≤ Config.maxCells ∧ s.ym.size ≤ Config.maxCells ∧
      0 + 5 ≤ s.tm.size ∧ 0 + (5 + 2) / 3 ≤ s.ym.size ∧ 1 + 3 * ((5 + 2) / 3) ≤ s.tm.size ∧
      ∀ j, j < 5 → (tRead s.tm (0 + j) = -1 ∨ tRead s.tm (0 + j) = 0 ∨ tRead s.tm (0 + j) = 1) :=
  ⟨(sample [1, -1, 0, 1, 1, 0, 0] [0x39, 0x39] 0 0 0 0).withPending
      (expandProgram [.encode 0 0 5, .decode 0 1 2]), by decide⟩

/-! ## Witnesses: ADD -/

/-- A whole memory with the largest n, and an empty window at the end of TM. -/
theorem witness_AddCompletesWithBalancedSum :
    AddReady (sample [1, 1, 1] [0x39] 0 0 3 2147483647) 0 3 2147483647 ∧
    AddReady (sample [0, 0, 0] [0x39] 3 0 0 9) 3 0 9 := by
  unfold AddReady IsTrit; decide

theorem witness_AddRunsPseudocodeLoop : AddReady (sample [1, 1, 1] [0x39] 0 0 3 13) 0 3 13 := by
  unfold AddReady IsTrit; decide

theorem witness_AddFaultsByPriority :
    (sample [0, 0, 0] [0x41] (-1) 0 1 0).opa.toInt < 0 ∧ (sample [0, 0, 0] [0x41] 0 0 (-1) 0).opc.toInt < 0 ∧
    (sample [0, 0, 0] [0x41] 0 0 3 (-2147483648)).opd.toInt < 0 ∧
    (∃ s : State, s.opa.toInt = (1 : Nat) ∧ s.opc.toInt = (3 : Nat) ∧ s.opd.toInt = (1 : Nat) ∧ s.tm.size < 1 + 3) ∧
    (∃ s : State, s.opa.toInt = (0 : Nat) ∧ s.opc.toInt = (3 : Nat) ∧ s.opd.toInt = (0 : Nat) ∧
      0 + 3 ≤ s.tm.size ∧ tRead s.tm (0 + 0) = -2) ∧
    (∃ s : State, s.opa.toInt = (0 : Nat) ∧ s.opc.toInt = (3 : Nat) ∧ s.opd.toInt = (0 : Nat) ∧
      0 + 3 ≤ s.tm.size ∧ tRead s.tm (0 + 2) = -2 ∧ ∀ l, l < 2 → tRead s.tm (0 + l) ≠ -2) :=
  ⟨by decide, by decide, by decide, ⟨sample [0, 0, 0] [0x41] 1 0 3 1, by decide⟩,
    ⟨sample [-2, 0, 0] [0x41] 0 0 3 0, by decide⟩, ⟨sample [0, 0, -2] [0x41] 0 0 3 0, by decide⟩⟩

/-- n = 0; len = 0; and a residual carry. -/
theorem witness_AddCornerCases :
    AddReady (sample [1, 0, -1] [0x39] 0 0 3 0) 0 3 0 ∧ AddReady (sample [0, 0, 0] [0x39] 0 0 0 7) 0 0 7 ∧
    (∃ s t : State, exec .add s = .next t ∧ t.result = 1#32) :=
  ⟨by unfold AddReady IsTrit; decide, by unfold AddReady IsTrit; decide,
    ⟨sample [1, 1, 1] [0x39] 0 0 3 1, _, rfl, by decide⟩⟩

/-! ## Witnesses: INC -/

/-- The chain stops at once, inside the window, at its boundary cell; and an empty window. -/
theorem witness_IncCompletes :
    IncReady (sample [0, 0, 0, 0] [0x39] 0 0 3 0) 0 3 0 ∧ IncReady (sample [1, 1, -1, 0] [0x39] 0 0 3 0) 0 3 2 ∧
    IncReady (sample [1, 1, 1, 0] [0x39] 0 0 3 0) 0 3 3 ∧ IncReady (sample [-1, 0, 0, 0] [0x39] 2 0 0 0) 2 0 0 := by
  unfold IncReady; decide

/-- The clauses: a negative operand; a window past the end; a chain past the end of TM; an invalid trit inside the
window and in the boundary cell; a boundary cell of 1, also with len = 0. -/
theorem witness_IncFaultsByPriority :
    (sample [0, 0, 0] [0x41] (-1) 0 1 0).opa.toInt < 0 ∧ (sample [0, 0, 0] [0x41] 0 0 (-1) 0).opc.toInt < 0 ∧
    (∃ s : State, s.opa.toInt = (2 : Nat) ∧ s.opc.toInt = (3 : Nat) ∧ s.tm.size < 2 + 3) ∧
    (∃ s : State, s.opa.toInt = (1 : Nat) ∧ s.opc.toInt = (3 : Nat) ∧ 1 + 3 = s.tm.size ∧
      ∀ j, j < 3 → tRead s.tm (1 + j) = 1) ∧
    (∃ s : State, s.opa.toInt = (0 : Nat) ∧ s.opc.toInt = (3 : Nat) ∧ 0 + 3 ≤ s.tm.size ∧ 1 ≤ 3 ∧
      0 + 1 < s.tm.size ∧ (∀ j, j < 1 → tRead s.tm (0 + j) = 1) ∧ tRead s.tm (0 + 1) = -2) ∧
    (∃ s : State, s.opa.toInt = (0 : Nat) ∧ s.opc.toInt = (3 : Nat) ∧ 0 + 3 ≤ s.tm.size ∧ 3 ≤ 3 ∧
      0 + 3 < s.tm.size ∧ (∀ j, j < 3 → tRead s.tm (0 + j) = 1) ∧ tRead s.tm (0 + 3) = -2) ∧
    (∃ s : State, s.opa.toInt = (0 : Nat) ∧ s.opc.toInt = (3 : Nat) ∧ 0 + 3 ≤ s.tm.size ∧ 3 ≤ 3 ∧
      0 + 3 < s.tm.size ∧ (∀ j, j < 3 → tRead s.tm (0 + j) = 1) ∧ tRead s.tm (0 + 3) = 1) ∧
    (∃ s : State, s.opa.toInt = (0 : Nat) ∧ s.opc.toInt = (0 : Nat) ∧ 0 + 0 ≤ s.tm.size ∧ 0 ≤ 0 ∧
      0 + 0 < s.tm.size ∧ (∀ j, j < 0 → tRead s.tm (0 + j) = 1) ∧ tRead s.tm (0 + 0) = 1) :=
  ⟨by decide, by decide, ⟨sample [0, 0, 0, 0] [0x41] 2 0 3 0, by decide⟩,
    ⟨sample [1, 1, 1, 1] [0x41] 1 0 3 0, by decide⟩, ⟨sample [1, -2, 0, 0] [0x41] 0 0 3 0, by decide⟩,
    ⟨sample [1, 1, 1, -2] [0x41] 0 0 3 0, by decide⟩, ⟨sample [1, 1, 1, 1] [0x41] 0 0 3 0, by decide⟩,
    ⟨sample [1, 0, 0, 0] [0x41] 0 0 0 0, by decide⟩⟩

/-- An overflow, a completion below the top, and a completion with the window at the top. -/
theorem witness_IncLaw :
    (∃ s t : State, s.opa.toInt = (0 : Nat) ∧ s.opc.toInt = (3 : Nat) ∧ 0 + 3 < s.tm.size ∧
      exec .inc s = .next t ∧ errField t.status = 6#4 ∧ windowValue s.tm 0 (3 + 1) = topValue (3 + 1)) ∧
    (∃ s t : State, s.opa.toInt = (0 : Nat) ∧ s.opc.toInt = (3 : Nat) ∧ 0 + 3 < s.tm.size ∧
      exec .inc s = .next t ∧ errField t.status = 0#4 ∧ windowValue s.tm 0 3 < topValue 3) ∧
    (∃ s t : State, s.opa.toInt = (0 : Nat) ∧ s.opc.toInt = (3 : Nat) ∧ 0 + 3 < s.tm.size ∧
      exec .inc s = .next t ∧ errField t.status = 0#4 ∧ windowValue s.tm 0 3 = topValue 3) :=
  ⟨⟨sample [1, 1, 1, 1] [0x39] 0 0 3 0, _, by decide, by decide, by decide, rfl, by decide, by decide⟩,
    ⟨sample [1, 1, 0, 1] [0x39] 0 0 3 0, _, by decide, by decide, by decide, rfl, by decide, by decide⟩,
    ⟨sample [1, 1, 1, -1] [0x39] 0 0 3 0, _, by decide, by decide, by decide, rfl, by decide, by decide⟩⟩

/-- A loop that leaves only trits, and one that leaves 2 in the boundary cell. -/
theorem witness_IncAgreesWithSourceLoop :
    (∃ s : State, s.opa.toInt = (0 : Nat) ∧ s.opc.toInt = (3 : Nat) ∧ 0 + 3 < s.tm.size ∧
      (∀ j, j ≤ 3 → (tRead s.tm (0 + j) = -1 ∨ tRead s.tm (0 + j) = 0 ∨ tRead s.tm (0 + j) = 1)) ∧
      2 ∉ incReading (cellValues s.tm 0 (3 + 1))) ∧
    (∃ s : State, s.opa.toInt = (0 : Nat) ∧ s.opc.toInt = (3 : Nat) ∧ 0 + 3 < s.tm.size ∧
      (∀ j, j ≤ 3 → (tRead s.tm (0 + j) = -1 ∨ tRead s.tm (0 + j) = 0 ∨ tRead s.tm (0 + j) = 1)) ∧
      2 ∈ incReading (cellValues s.tm 0 (3 + 1))) :=
  ⟨⟨sample [1, 1, 1, 0] [0x39] 0 0 3 0, by decide⟩, ⟨sample [1, 1, 1, 1] [0x39] 0 0 3 0, by decide⟩⟩

/-- A window below the top, and a window at the top whose boundary cell INC increments. -/
theorem witness_IncAgreesWithAddOneBelowTop :
    (∃ s ta ti : State, AddReady s 0 3 1 ∧ exec .add s = .next ta ∧ exec .inc s = .next ti ∧
      windowValue s.tm 0 3 < topValue 3) ∧
    (∃ s ta ti : State, AddReady s 0 3 1 ∧ exec .add s = .next ta ∧ exec .inc s = .next ti ∧
      windowValue s.tm 0 3 = topValue 3 ∧ errField ti.status = 0#4) :=
  ⟨⟨sample [1, 0, 1, 0] [0x39] 0 0 3 1, _, _, by unfold AddReady IsTrit; decide, rfl, rfl, by decide⟩,
    ⟨sample [1, 1, 1, 0] [0x39] 0 0 3 1, _, _, by unfold AddReady IsTrit; decide, rfl, rfl, by decide, by decide⟩⟩

/-! ## Witnesses: TTEVAL -/

theorem witness_TtevalCompletes :
    (sample [0] [0x39] (-1) 1 0 0).opa.toInt = -1 ∧ (sample [0] [0x39] (-1) 1 0 0).opb.toInt = 1 := by decide

/-- Each input just outside the domain, on either side. -/
theorem witness_TtevalFaultsOutsideDomain :
    ((sample [0] [0x39] 2 0 0 0).opa.toInt ≠ -1 ∧ (sample [0] [0x39] 2 0 0 0).opa.toInt ≠ 0 ∧
      (sample [0] [0x39] 2 0 0 0).opa.toInt ≠ 1) ∧
    ((sample [0] [0x39] 0 (-2) 0 0).opb.toInt ≠ -1 ∧ (sample [0] [0x39] 0 (-2) 0 0).opb.toInt ≠ 0 ∧
      (sample [0] [0x39] 0 (-2) 0 0).opb.toInt ≠ 1) := by decide

theorem witness_TruthTableFormsAgree :
    ((-1 : Int) = -1 ∨ (-1 : Int) = 0 ∨ (-1 : Int) = 1) ∧ ((1 : Int) = -1 ∨ (1 : Int) = 0 ∨ (1 : Int) = 1) := by
  decide

/-! ## Witnesses: the ROMs -/

/-- Row 14, the lowest value; the triplet of all -1. -/
theorem witness_TryteRomIsBijection : 14 < 27 ∧ tryteRow 14 = (-1, -1, -1) := by decide

/-- The first and the last valid code. -/
theorem witness_AlphabetIndexInvertsRom : validTryte 0x39#8 = true ∧ validTryte 0x5A#8 = true ∧ 26 < 27 := by decide

/-! ## Witnesses: rules over all commands -/

theorem witness_WriteWindowsOfCompletingCommands :
    DecodeReady (sample [0, 0, 0, 0, 0, 0, 0] [0x47, 0x4F] 0 1 2 0) 0 1 2 ∧
    EncodeReady (sample [0, 1, -1, -1, 1] [0x39, 0x39] 0 0 5 0) 0 0 5 ∧
    AddReady (sample [1, 1, 1] [0x39] 0 0 3 13) 0 3 13 ∧ IncReady (sample [1, 1, 1, 0] [0x39] 0 0 3 0) 0 3 3 := by
  unfold DecodeReady EncodeReady AddReady IncReady IsTrit; decide

/-- One completing command of each kind, with a cell outside its window. -/
theorem witness_CommandsWriteOnlyTheirWindows :
    (∃ s t : State, exec .encode s = .next t ∧ s.opb.toInt = (0 : Nat) ∧ s.opc.toInt = (1 : Nat) ∧
      0 + (1 + 2) / 3 ≤ 1 ∧ 1 < s.ym.size ∧ errField t.status = 0#4) ∧
    (∃ s t : State, exec .add s = .next t ∧ s.opa.toInt = (1 : Nat) ∧ s.opc.toInt = (1 : Nat) ∧
      (2 < 1 ∨ 1 + 1 ≤ 2) ∧ 2 < s.tm.size ∧ errField t.status = 0#4) ∧
    (∃ s t : State, exec .inc s = .next t ∧ s.opa.toInt = (0 : Nat) ∧ s.opc.toInt = (1 : Nat) ∧
      (2 < 0 ∨ 0 + 1 < 2) ∧ 2 < s.tm.size ∧ errField t.status = 0#4) ∧
    (∃ s t : State, exec .tteval s = .next t ∧ errField t.status = 0#4) :=
  ⟨⟨sample [1, 0, 0] [0x39, 0x39] 0 0 1 0, _, rfl, by decide⟩, ⟨sample [1, 0, 0] [0x39] 1 0 1 5, _, rfl, by decide⟩,
    ⟨sample [1, 0, 0] [0x39] 0 0 1 0, _, rfl, by decide⟩, ⟨sample [1, 0, 0] [0x39] 0 1 0 0, _, rfl, by decide⟩⟩

/-- A command that faults and one that completes. -/
theorem witness_FaultsArePrecise :
    (∃ t : State, step (hostAbout [.writeReg 0 0x00000000#32]) = .next t ∧ errField t.status ≠ 0#4) ∧
    (∃ t : State, step (hostAbout [.writeReg 0 0x00000001#32]) = .next t ∧ errField t.status = 0#4) :=
  ⟨⟨_, rfl, by decide⟩, ⟨_, rfl, by decide⟩⟩

/-- ERR_ANY set before a completing command; and a command that sets it. -/
theorem witness_ErrAnyClearedOnlyByReset :
    (∃ s t : State, s.pending = .writeReg 0 0x00000005#32 :: [] ∧ step s = .next t ∧
      errAnyBit s.status = true ∧ errField t.status = 0#4) ∧
    (∃ s t : State, s.pending = .writeReg 0 0x00000007#32 :: [] ∧ step s = .next t ∧
      errAnyBit s.status = false ∧ errField t.status ≠ 0#4) :=
  ⟨⟨{ hostAbout [.writeReg 0 0x00000005#32] with status := 0x00000010#32 }, _, rfl, rfl, by decide⟩,
    ⟨hostAbout [.writeReg 0 0x00000007#32], _, rfl, rfl, by decide⟩⟩

/-- 2.4 "-2 codes above the last visited cell are not read". -/
theorem witness_NoCommandWritesInvalidTrit :
    ∃ s t : State, exec .inc s = .next t ∧ errField t.status = 0#4 ∧ tRead t.tm 1 = -2 :=
  ⟨sample [0, -2, -2, -2] [0x39] 0 0 3 0, _, rfl, by decide⟩

/-- Each of the five commands, completing. -/
theorem witness_IgnoredOperandsDoNotMatter :
    (∃ s t : State, exec .decode s = .next t ∧ errField t.status = 0#4) ∧
    (∃ s t : State, exec .encode s = .next t ∧ errField t.status = 0#4) ∧
    (∃ s t : State, exec .add s = .next t ∧ errField t.status = 0#4) ∧
    (∃ s t : State, exec .inc s = .next t ∧ errField t.status = 0#4) ∧
    (∃ s t : State, exec .tteval s = .next t ∧ errField t.status = 0#4) :=
  ⟨⟨sample [0, 0, 0] [0x5A] 0 0 1 0, _, rfl, by decide⟩, ⟨sample [1, 0, 0] [0x39] 0 0 3 0, _, rfl, by decide⟩,
    ⟨sample [1, 0, 0] [0x39] 0 0 3 1, _, rfl, by decide⟩, ⟨sample [1, 0, 0] [0x39] 0 0 3 0, _, rfl, by decide⟩,
    ⟨sample [1, 0, 0] [0x39] 0 1 0 0, _, rfl, by decide⟩⟩

/-- A command, with a reset and a read to come later. -/
theorem witness_LaterActionsDoNotAffectEarlier :
    ∃ t : State, Sys2Proof.core.run [HostAction.writeReg 0 0x00000001#32].length
      ((hostAbout []).withPending ([.writeReg 0 0x00000001#32] ++ [.reset, .readReg 5])) = .next t :=
  ⟨_, rfl⟩

/-- A state after a fault, about to run a command. -/
theorem witness_StepKeepsInvariant :
    ∃ s t : State, s.Inv ∧ step s = .next t ∧ errField s.status = 5#4 :=
  ⟨{ hostAbout [.writeReg 0 0x00000001#32] with status := 0x00000015#32, faddr := 2#32 }, _,
    by unfold State.Inv MemoryOk StatusOk ReportOk; decide, rfl, by decide⟩

/-! ## Witnesses: commands in a race -/

/-- A sample whose host is about to run a command that races on these cells. -/
def racing (s : State) (w : Word) (tms yms : List Nat) : State := s.withPending [.raceDuringCommand w tms yms]

theorem witness_RaceOnNoCellIsTheCommand :
    (racing (sample [1, 0, 0] [0x41] 0 0 1 0) 0x00000001#32 [] []).pending =
      .raceDuringCommand 0x00000001#32 [] [] :: [] := by decide

/-- An ADD on cells 0 and 1 with a race on cell 1 and on the last YM cell; cell 2 is outside. -/
theorem witness_RacedCellsEndFree :
    ∃ s : State, s.pending = .raceDuringCommand 0x00000003#32 [1] [0] :: [] ∧ (∀ a ∈ [1], a < s.tm.size) ∧
      (∀ a ∈ [0], a < s.ym.size) ∧ 2 ∉ [1] ∧ 2 < s.tm.size ∧ decodeWord 0x00000003#32 = .ok .add ∧
      s.opa.toInt + s.opc.toInt ≤ (2 : Int) :=
  ⟨racing (sample [1, 0, 0] [0x41] 0 0 2 5) 0x00000003#32 [1] [0], rfl, by decide, by decide, by decide, by decide,
    rfl, by decide⟩

/-- Windows that end at the ends of the memories, with races on the last source cell and the first destination cell. -/
theorem witness_RacingDecodeReadsTwice :
    ∃ s : State, s.pending = .raceDuringCommand 0x00000001#32 [1] [1] :: [] ∧ (∀ a ∈ [1], a < s.tm.size) ∧
      (∀ a ∈ [1], a < s.ym.size) ∧ s.opa.toInt = (0 : Nat) ∧ s.opb.toInt = (1 : Nat) ∧ s.opc.toInt = (2 : Nat) ∧
      0 + 2 ≤ s.ym.size ∧ 1 + 3 * 2 ≤ s.tm.size :=
  ⟨racing (sample [0, 0, 0, 0, 0, 0, 0] [0x47, 0x4F] 0 1 2 0) 0x00000001#32 [1] [1], by decide⟩

/-- Each of the three commands, with a race on a cell it reads. -/
theorem witness_RacingTritReadersReadTwice :
    (∃ s : State, s.pending = .raceDuringCommand 0x00000002#32 [4] [0] :: [] ∧ (∀ a ∈ [4], a < s.tm.size) ∧
      (∀ a ∈ [0], a < s.ym.size) ∧ s.opa.toInt = (0 : Nat) ∧ s.opb.toInt = (0 : Nat) ∧ s.opc.toInt = (5 : Nat) ∧
      0 + 5 ≤ s.tm.size ∧ 0 + (5 + 2) / 3 ≤ s.ym.size) ∧
    (∃ s : State, s.pending = .raceDuringCommand 0x00000003#32 [0, 2] [] :: [] ∧ (∀ a ∈ [0, 2], a < s.tm.size) ∧
      (∀ a ∈ ([] : List Nat), a < s.ym.size) ∧ s.opa.toInt = (0 : Nat) ∧ s.opc.toInt = (3 : Nat) ∧
      s.opd.toInt = (13 : Nat) ∧ 0 + 3 ≤ s.tm.size) ∧
    (∃ s : State, s.pending = .raceDuringCommand 0x00000004#32 [3] [] :: [] ∧ (∀ a ∈ [3], a < s.tm.size) ∧
      (∀ a ∈ ([] : List Nat), a < s.ym.size) ∧ s.opa.toInt = (0 : Nat) ∧ s.opc.toInt = (3 : Nat) ∧
      0 + 3 < s.tm.size) :=
  ⟨⟨racing (sample [0, 1, -1, -1, 1] [0x39, 0x39] 0 0 5 0) 0x00000002#32 [4] [0], by decide⟩,
    ⟨racing (sample [1, 1, 1] [0x39] 0 0 3 13) 0x00000003#32 [0, 2] [], by decide⟩,
    ⟨racing (sample [1, 1, 1, 0] [0x39] 0 0 3 0) 0x00000004#32 [3] [], by decide⟩⟩

end Sys2Proof.Tests
end

section
/-! PROOF. O51: a command forgets what an earlier one reported. Its checks and its cells come from the operands and the
memories, which a change of report keeps, and both ways to end (`raiseFault`, `complete`) write all three report
registers afresh, keeping of STATUS at most ERR_ANY. -/

namespace Sys2Proof.Machine

/-- The report registers RESULT, FADDR and STATUS.ERR replaced, ERR_ANY kept. -/
def State.withReport (s : State) (r f : Word) (c : Cause) : State :=
  { s with result := r, faddr := f, status := statusWord (errAnyBit s.status) c }

variable (s : State) (r f : Word) (c : Cause)

@[simp] theorem withReport_opa : (s.withReport r f c).opa = s.opa := rfl
@[simp] theorem withReport_opb : (s.withReport r f c).opb = s.opb := rfl
@[simp] theorem withReport_opc : (s.withReport r f c).opc = s.opc := rfl
@[simp] theorem withReport_opd : (s.withReport r f c).opd = s.opd := rfl
@[simp] theorem withReport_tm : (s.withReport r f c).tm = s.tm := rfl
@[simp] theorem withReport_ym : (s.withReport r f c).ym = s.ym := rfl

theorem withReport_withTm (m : Memory 2) : (s.withReport r f c).withTm m = (s.withTm m).withReport r f c := rfl

theorem withReport_withYm (m : Memory 8) : (s.withReport r f c).withYm m = (s.withYm m).withReport r f c := rfl

/-! ### Both ends of a command overwrite the report -/

/-- R170: a fault writes every report register without reading one. -/
@[simp] theorem raiseFault_withReport (cause : Cause) (a : Nat) :
    raiseFault cause a (s.withReport r f c) = raiseFault cause a s := rfl

/-- R171: the STATUS of a completion depends on ERR_ANY alone of the STATUS before. -/
theorem statusAfterCompletion_statusWord (w : Word) :
    statusAfterCompletion (statusWord (errAnyBit w) c) = statusAfterCompletion w := by
  simp only [statusAfterCompletion, errAnyBit_statusWord]

@[simp] theorem complete_withReport (result : Word) :
    complete result (s.withReport r f c) = complete result s := by
  simp only [complete, State.withReport, statusAfterCompletion_statusWord]

@[simp] theorem complete_withReport_withTm (result : Word) (m : Memory 2) :
    complete result ((s.withReport r f c).withTm m) = complete result (s.withTm m) := by
  rw [withReport_withTm, complete_withReport]

@[simp] theorem complete_withReport_withYm (result : Word) (m : Memory 8) :
    complete result ((s.withReport r f c).withYm m) = complete result (s.withYm m) := by
  rw [withReport_withYm, complete_withReport]

/-! ### No meaning sees the report -/

theorem decodeSeeing_withReport (checked used : Memory 8) (src dst count : Nat) :
    decodeSeeing checked used src dst count (s.withReport r f c) = decodeSeeing checked used src dst count s := by
  simp only [decodeSeeing, withReport_tm, withReport_ym, raiseFault_withReport, complete_withReport_withTm]

theorem encodeSeeing_withReport (checked used : Memory 2) (src dst len : Nat) :
    encodeSeeing checked used src dst len (s.withReport r f c) = encodeSeeing checked used src dst len s := by
  simp only [encodeSeeing, withReport_tm, withReport_ym, raiseFault_withReport, complete_withReport_withYm]

theorem addSeeing_withReport (checked used : Memory 2) (base len n : Nat) :
    addSeeing checked used base len n (s.withReport r f c) = addSeeing checked used base len n s := by
  simp only [addSeeing, withReport_tm, raiseFault_withReport, complete_withReport_withTm]

theorem incAt_withReport (used : Memory 2) (base len k : Nat) :
    incAt used base len k (s.withReport r f c) = incAt used base len k s := by
  simp only [incAt, withReport_tm, raiseFault_withReport, complete_withReport_withTm]

theorem incSeeing_withReport (tested used : Memory 2) (base len : Nat) :
    incSeeing tested used base len (s.withReport r f c) = incSeeing tested used base len s := by
  simp only [incSeeing, withReport_tm, raiseFault_withReport, incAt_withReport]

theorem runDecodeSeeing_withReport (checked used : Memory 8) :
    runDecodeSeeing checked used (s.withReport r f c) = runDecodeSeeing checked used s := by
  simp only [runDecodeSeeing, withReport_opa, withReport_opb, withReport_opc, raiseFault_withReport,
    decodeSeeing_withReport]

theorem runEncodeSeeing_withReport (checked used : Memory 2) :
    runEncodeSeeing checked used (s.withReport r f c) = runEncodeSeeing checked used s := by
  simp only [runEncodeSeeing, withReport_opa, withReport_opb, withReport_opc, raiseFault_withReport,
    encodeSeeing_withReport]

theorem runAddSeeing_withReport (checked used : Memory 2) :
    runAddSeeing checked used (s.withReport r f c) = runAddSeeing checked used s := by
  simp only [runAddSeeing, withReport_opa, withReport_opc, withReport_opd, raiseFault_withReport,
    addSeeing_withReport]

theorem runIncSeeing_withReport (tested used : Memory 2) :
    runIncSeeing tested used (s.withReport r f c) = runIncSeeing tested used s := by
  simp only [runIncSeeing, withReport_opa, withReport_opc, raiseFault_withReport, incSeeing_withReport]

theorem runTteval_withReport : runTteval (s.withReport r f c) = runTteval s := by
  simp only [runTteval, withReport_opa, withReport_opb, raiseFault_withReport, complete_withReport]

theorem exec_withReport (i : Instr) : exec i (s.withReport r f c) = exec i s := by
  cases i with
  | decode => exact congrArg Host.Outcome.next (runDecodeSeeing_withReport s r f c s.ym s.ym)
  | encode => exact congrArg Host.Outcome.next (runEncodeSeeing_withReport s r f c s.tm s.tm)
  | add => exact congrArg Host.Outcome.next (runAddSeeing_withReport s r f c s.tm s.tm)
  | inc => exact congrArg Host.Outcome.next (runIncSeeing_withReport s r f c s.tm s.tm)
  | tteval => exact congrArg Host.Outcome.next (runTteval_withReport s r f c)

end Sys2Proof.Machine

namespace Sys2Proof.Proofs
open Sys2Proof.Machine

/-- Settles O51: the changed registers are `withReport`, which no meaning sees. -/
theorem earlierReportsDoNotMatter : Obligations.EarlierReportsDoNotMatter :=
  fun i s r f c => exec_withReport s r f c i

end Sys2Proof.Proofs
end

section
/-! PROOF. O54: the machine right after reset meets the invariant. -/

namespace Sys2Proof.Machine

/-- R7: a free choice folded into the range of sizes lies in it. -/
theorem foldedSize_range (choice : Nat) :
    1 ≤ choice % Config.maxCells + 1 ∧ choice % Config.maxCells + 1 ≤ Config.maxCells := by
  have hlt : choice % Config.maxCells < Config.maxCells := Nat.mod_lt _ (by decide)
  omega

/-- A memory that nothing was written to is in canonical form, so only its size matters. -/
theorem memoryOk_unwritten {w size : Nat} (h : 1 ≤ size ∧ size ≤ Config.maxCells) :
    MemoryOk ({ size := size, cells := [] } : Memory w) :=
  ⟨rfl, h⟩

/-- R24: a STATUS word built from a cause and an ERR_ANY that is set whenever there is a cause. -/
theorem statusOk_statusWord (b : Bool) (c : Cause) (h : c ≠ .none → b = true) : StatusOk (statusWord b c) := by
  refine ⟨reserved_statusWord b c, ?_, fun herr => ?_⟩
  · rw [errField_statusWord]
    exact code_toNat_le c
  · rw [errAnyBit_statusWord]
    rw [errField_statusWord] at herr
    exact h fun hc => herr (by rw [hc]; rfl)

/-- R23, R26: with no cause in STATUS, FADDR 0 is all that the reports have to meet. -/
theorem reportOk_of_noCause (s : State) (herr : errField s.status = 0#4) (hfaddr : s.faddr = 0#32) : ReportOk s := by
  unfold ReportOk
  rw [herr]
  exact ⟨fun h => absurd rfl h, fun h => absurd h (by decide), fun h => absurd h (by decide), fun _ => hfaddr⟩

theorem zeroStatus_eq_statusWord : 0#32 = statusWord false .none := by decide

end Sys2Proof.Machine

namespace Sys2Proof.Proofs
open Sys2Proof.Machine

/-- Settles O54: unwritten memories of a size within R7, and no cause reported. -/
theorem resetMeetsInvariant : Obligations.ResetMeetsInvariant := by
  have hstatus : State.reset.status = statusWord false .none := zeroStatus_eq_statusWord
  refine ⟨memoryOk_unwritten (foldedSize_range Config.bufTritsChoice),
    memoryOk_unwritten (foldedSize_range Config.bufTrytesChoice), ?_, reportOk_of_noCause _ ?_ rfl⟩
  · rw [hstatus]
    exact statusOk_statusWord false .none fun h => absurd rfl h
  · rw [hstatus, errField_statusWord]
    rfl

end Sys2Proof.Proofs
end

section
/-! PROOF. O28, O49 and the report part of O55: how a run ends, with what the spec says of the addresses it reports and
of the cells it stores. One inversion per command covers the plain and the racing form (log 6), and each rule is then a
case split on the four ends. -/

namespace Sys2Proof.Machine

/-- R26, R160: the address a fault of each cause reports, 0 or a cell of the memory the cause speaks of. -/
def FaultCell (s : State) : Cause → Nat → Prop
  | .none, _ => False
  | .illegalOp, a | .invalidOperand, a | .bounds, a => a = 0
  | .invalidTryte, a => a < s.ym.size
  | .invalidTrit, a | .incOverflow, a => a < s.tm.size

/-- The four ends of `CommandEnd`, for a run that races on the TM cells `tms`, with R26 for a fault's address and R35 and
R36 for the stored cells: no invalid trit code but in a raced cell, and valid tryte codes only. -/
inductive RunEnd (tms : List Nat) (s : State) : State → Prop where
  | fault (c : Cause) (a : Nat) (hcell : FaultCell s c a) : RunEnd tms s (raiseFault c a s)
  | result (r : Word) : RunEnd tms s (complete r s)
  | tm (r : Word) (a : Nat) (vs : List TritCell)
      (htrits : ∀ i, ∀ h : i < vs.length, a + i ∉ tms → tritValue vs[i] ≠ -2) :
      RunEnd tms s (complete r (s.withTm (s.tm.writeAll a vs)))
  | ym (r : Word) (a : Nat) (vs : List TryteCode) (hcodes : ∀ c ∈ vs, validTryte c = true) :
      RunEnd tms s (complete r (s.withYm (s.ym.writeAll a vs)))

/-! ### What the commands store -/

theorem tritValue_tritCell_ne (v : Int) (h : v = -1 ∨ v = 0 ∨ v = 1) : tritValue (tritCell v) ≠ -2 := by
  rw [tritValue_tritCell v (.inr h)]
  omega

theorem decodeTrytes_trits (cs : List TryteCode) : ∀ v ∈ decodeTrytes cs, tritValue v ≠ -2 := by
  induction cs with
  | nil => simp [decodeTrytes]
  | cons c cs ih =>
    obtain ⟨h0, h1, h2⟩ := tryteRow_trits (alphaIndex c)
    intro v hv
    rcases List.mem_append.1 hv with hv | hv
    · simp only [tripletOf, List.mem_cons, List.not_mem_nil, or_false] at hv
      rcases hv with rfl | rfl | rfl
      · exact tritValue_tritCell_ne _ h0
      · exact tritValue_tritCell_ne _ h1
      · exact tritValue_tritCell_ne _ h2
    · exact ih v hv

theorem encodeTrits_valid (ts : List TritCell) : ∀ c ∈ encodeTrits ts, validTryte c = true := by
  induction ts using encodeTrits.induct with
  | case1 => simp [encodeTrits]
  | case2 t => simp [encodeTrits, groupCode, alphaAt_valid]
  | case3 t u => simp [encodeTrits, groupCode, alphaAt_valid]
  | case4 t u v rest ih =>
    intro c hc
    rcases List.mem_cons.1 hc with rfl | hc
    · exact alphaAt_valid _
    · exact ih c hc

/-- R122: where ADD's chain reads a trit, it stores a trit. -/
theorem addDigits_trit (ts : List TritCell) (n i : Nat) (hi : i < ts.length) (h : tritValue ts[i] ≠ -2) :
    tritValue ((addDigits ts n)[i]'(by simpa using hi)) ≠ -2 := by
  induction ts generalizing n i with
  | nil => exact absurd hi (by simp)
  | cons t ts ih =>
    cases i with
    | zero =>
      have hdigit := (stage_law t n h).2
      simp only [addDigits, List.getElem_cons_zero]
      omega
    | succ i => exact ih (stageCarry t n) i (by simpa using hi) h

/-- R125: the cell at which INC's chain ends completes to 0 or 1 unless it is raced on, as only then the use can see a 1
that the test did not. -/
theorem incremented_trit (tested used : Memory 2) (a k len : Nat) (hsame : tRead used a = tRead tested a)
    (hstop : k < len → tRead tested a ≠ 1) (hk : k ≤ len) (hvalid : tRead used a ≠ -2)
    (htop : ¬ (k = len ∧ tRead used a = 1)) : tritValue (tritCell (tRead used a + 1)) ≠ -2 := by
  have hone : tRead used a ≠ 1 := fun h => by
    rcases Nat.lt_or_ge k len with hlt | hge
    · exact hstop hlt (hsame ▸ h)
    · exact htop ⟨by omega, h⟩
  rcases tritValue_cases (readTrit used a) with h | h | h | h
  · exact absurd h hvalid
  · exact tritValue_tritCell_ne _ (.inr (.inl (by rw [tRead, h]; rfl)))
  · exact tritValue_tritCell_ne _ (.inr (.inr (by rw [tRead, h]; rfl)))
  · exact absurd h hone

/-! ### One inversion per command -/

theorem runDecodeSeeing_runEnd (tms : List Nat) (checked used : Memory 8) (s : State) :
    RunEnd tms s (runDecodeSeeing checked used s) := by
  rcases runDecodeSeeing_cases checked used s with ⟨h, _⟩ | ⟨src, dst, count, _, _, _, h⟩
  · rw [h]; exact .fault _ _ rfl
  rw [h]
  rcases decodeSeeing_cases checked used src dst count s with
    ⟨h, _⟩ | ⟨hsrc, _, ⟨i, hi, h, _⟩ | ⟨h, _⟩⟩
  · rw [h]; exact .fault _ _ rfl
  · rw [h]; exact .fault _ _ (show src + i < s.ym.size by omega)
  · rw [h]; exact .tm _ _ _ fun i hi _ => decodeTrytes_trits _ _ (List.getElem_mem hi)

theorem runEncodeSeeing_runEnd (tms : List Nat) (checked used : Memory 2) (s : State) :
    RunEnd tms s (runEncodeSeeing checked used s) := by
  rcases runEncodeSeeing_cases checked used s with ⟨h, _⟩ | ⟨src, dst, len, _, _, _, h⟩
  · rw [h]; exact .fault _ _ rfl
  rw [h]
  rcases encodeSeeing_cases checked used src dst len s with ⟨h, _⟩ | ⟨hsrc, _, ⟨i, hi, h, _⟩ | ⟨h, _⟩⟩
  · rw [h]; exact .fault _ _ rfl
  · rw [h]; exact .fault _ _ (show src + i < s.tm.size by omega)
  · rw [h]; exact .ym _ _ _ (encodeTrits_valid _)

/-- The two passes differ in raced cells only, so what the chain reads elsewhere has passed the check. -/
theorem runAddSeeing_runEnd (tms : List Nat) (checked used : Memory 2) (s : State)
    (hsame : ∀ a, a ∉ tms → tRead used a = tRead checked a) : RunEnd tms s (runAddSeeing checked used s) := by
  rcases runAddSeeing_cases checked used s with ⟨h, _⟩ | ⟨base, len, n, _, _, _, h⟩
  · rw [h]; exact .fault _ _ rfl
  rw [h]
  rcases addSeeing_cases checked used base len n s with ⟨h, _⟩ | ⟨hbase, ⟨i, hi, h, _⟩ | ⟨h, hvalid⟩⟩
  · rw [h]; exact .fault _ _ rfl
  · rw [h]; exact .fault _ _ (show base + i < s.tm.size by omega)
  · rw [h]
    refine .tm _ _ _ fun i hi hraced => ?_
    have hlen : i < len := by simpa using hi
    refine addDigits_trit _ n i (by simpa using hlen) ?_
    rw [tritsAt_get]
    exact fun hread => hvalid i hlen ((hsame _ hraced).symm.trans hread)

theorem runIncSeeing_runEnd (tms : List Nat) (tested used : Memory 2) (s : State)
    (hsame : ∀ a, a ∉ tms → tRead used a = tRead tested a) : RunEnd tms s (runIncSeeing tested used s) := by
  rcases runIncSeeing_cases tested used s with ⟨h, _⟩ | ⟨base, len, _, _, h⟩
  · rw [h]; exact .fault _ _ rfl
  rw [h]
  rcases incSeeing_cases tested used base len s with
    ⟨h, _⟩ | ⟨_, k, hk, _, hstop, ⟨h, _⟩ | ⟨hcell, ⟨h, _⟩ | ⟨h, rfl, _⟩ | ⟨h, hvalid, htop⟩⟩⟩
  · rw [h]; exact .fault _ _ rfl
  · rw [h]; exact .fault _ _ rfl
  · rw [h]; exact .fault _ _ hcell
  · rw [h]; exact .fault _ _ hcell
  · rw [h]
    refine .tm _ _ _ fun i hi hraced => ?_
    simp only [List.length_append, List.length_replicate, List.length_singleton] at hi
    rcases Nat.lt_or_ge i k with hlt | hge
    · rw [List.getElem_append_left (by simpa using hlt), List.getElem_replicate]
      decide
    · obtain rfl : i = k := by omega
      rw [List.getElem_append_right (by simp)]
      simpa using incremented_trit tested used _ _ len (hsame _ hraced) hstop hk hvalid htop

theorem runTteval_runEnd (tms : List Nat) (s : State) : RunEnd tms s (runTteval s) := by
  rcases runTteval_cases s with ⟨h, _⟩ | ⟨x1, x2, _, _, h⟩
  · rw [h]; exact .fault _ _ rfl
  · rw [h]; exact .result _

/-- R64: both passes of a command see TM itself where no race is. -/
theorem tRead_tmSeen_unraced (pass : Nat) (tms : List Nat) (s : State) (a : Nat) (h : a ∉ tms) :
    tRead (tmSeen pass tms s) a = tRead s.tm a := by
  rw [tRead, readTrit_tmSeen, if_neg h]
  rfl

theorem runRacing_runEnd (i : Instr) (tms yms : List Nat) (s : State) : RunEnd tms s (runRacing i tms yms s) := by
  have hsame : ∀ a, a ∉ tms → tRead (tmSeen 1 tms s) a = tRead (tmSeen 0 tms s) a := fun a ha => by
    rw [tRead_tmSeen_unraced 1 tms s a ha, tRead_tmSeen_unraced 0 tms s a ha]
  cases i with
  | decode => exact runDecodeSeeing_runEnd tms _ _ s
  | encode => exact runEncodeSeeing_runEnd tms _ _ s
  | add => exact runAddSeeing_runEnd tms _ _ s hsame
  | inc => exact runIncSeeing_runEnd tms _ _ s hsame
  | tteval => exact runTteval_runEnd tms s

/-- A command with no race is a run that races on no cell. -/
theorem exec_runEnd (i : Instr) (s t : State) (h : exec i s = .next t) : RunEnd [] s t := by
  rw [exec_runRacing] at h
  cases h
  exact runRacing_runEnd i [] [] s

/-! ### The rules that follow -/

/-- R35: a run leaves the invalid trit code in an unraced cell only where it stood. -/
theorem RunEnd.invalidTrit_before {tms : List Nat} {s t : State} (h : RunEnd tms s t) (a : Nat) (hraced : a ∉ tms)
    (ha : tRead t.tm a = -2) : tRead s.tm a = -2 := by
  cases h with
  | fault c b _ => exact ha
  | result r => exact ha
  | ym r b vs _ => exact ha
  | tm r b vs htrits =>
    simp only [complete_tm, withTm_tm, tRead, readTrit_writeAll] at ha
    split at ha
    case isTrue hin =>
      exact absurd ha (htrits (a - b) (by omega) (by rwa [Nat.add_sub_cancel' hin.1]))
    case isFalse => exact ha

/-- R36: a run leaves each YM cell as it was or with a valid code. -/
theorem RunEnd.tryte_kept_or_valid {tms : List Nat} {s t : State} (h : RunEnd tms s t) (a : Nat) :
    readTryte t.ym a = readTryte s.ym a ∨ validTryte (readTryte t.ym a) = true := by
  cases h with
  | fault c b _ => exact .inl rfl
  | result r => exact .inl rfl
  | tm r b vs _ => exact .inl rfl
  | ym r b vs hcodes =>
    simp only [complete_ym, withYm_ym, readTryte_writeAll]
    split
    case isTrue => exact .inr (hcodes _ (List.getElem_mem _))
    case isFalse => exact .inl rfl

/-- R10: an address below a size that R7 allows is its own 32-bit word. -/
theorem toNat_word32_of_cell {size a : Nat} (hsize : size ≤ Config.maxCells) (h : a < size) : (word32 a).toNat = a := by
  rw [word32_natCast, BitVec.toNat_ofNat]
  unfold Config.maxCells at hsize
  omega

/-- R23, R26, R160: a fault that names a cell of its memory leaves a report that agrees with its cause. -/
theorem reportOk_raiseFault {s : State} {c : Cause} {a : Nat} (htm : s.tm.size ≤ Config.maxCells)
    (hym : s.ym.size ≤ Config.maxCells) (h : FaultCell s c a) : ReportOk (raiseFault c a s) := by
  have hzero (h0 : a = 0) : word32 (a : Int) = 0#32 := by subst h0; rfl
  have hym' (h : a < s.ym.size) := (toNat_word32_of_cell hym h).trans_lt h
  have htm' (h : a < s.tm.size) := (toNat_word32_of_cell htm h).trans_lt h
  simp only [ReportOk, raiseFault_status, errField_afterFault, raiseFault_result, raiseFault_faddr, raiseFault_tm,
    raiseFault_ym]
  cases c with
  | none => exact h.elim
  | illegalOp => simp [Cause.code, hzero h]
  | invalidOperand => simp [Cause.code, hzero h]
  | bounds => simp [Cause.code, hzero h]
  | invalidTryte => simp [Cause.code, hym' h]
  | invalidTrit => simp [Cause.code, htm' h]
  | incOverflow => simp [Cause.code, htm' h]

theorem reportOk_complete (r : Word) (s : State) : ReportOk (complete r s) :=
  reportOk_of_noCause _ (errField_afterCompletion s.status) rfl

theorem RunEnd.reportOk {tms : List Nat} {s t : State} (h : RunEnd tms s t) (htm : s.tm.size ≤ Config.maxCells)
    (hym : s.ym.size ≤ Config.maxCells) : ReportOk t := by
  cases h with
  | fault c a hcell => exact reportOk_raiseFault htm hym hcell
  | result r => exact reportOk_complete r s
  | tm r a vs _ => exact reportOk_complete r _
  | ym r a vs _ => exact reportOk_complete r _

end Sys2Proof.Machine

namespace Sys2Proof.Proofs
open Sys2Proof.Machine

/-- Settles O28: only ENCODE stores in YM, and what it stores are characters of ALPHA. -/
theorem commandsWriteOnlyValidCodes : Obligations.CommandsWriteOnlyValidCodes :=
  fun i s t a h => (exec_runEnd i s t h).tryte_kept_or_valid a

/-- Settles O49: with no race, every cell that a command stores in TM holds a trit. -/
theorem noCommandWritesInvalidTrit : Obligations.NoCommandWritesInvalidTrit :=
  fun i s t a h => (exec_runEnd i s t h).invalidTrit_before a (by simp)

end Sys2Proof.Proofs
end

section
/-! PROOF. O55 and O48: every step keeps the invariant, and only a reset clears ERR_ANY. What a host action can do is said
once (`perform_cases`): it leaves the report registers alone, or runs a command, or resets. -/

namespace Sys2Proof.Machine

/-! ### Commands -/

/-- R170, R171: ERR_ANY after a command is set exactly when it was set or the command faulted. -/
theorem CommandEnd.errAnyBit_eq {s t : State} (h : CommandEnd s t) :
    errAnyBit t.status = (errAnyBit s.status || decide (errField t.status ≠ 0#4)) := by
  cases h with
  | fault c a hc => simp [code_ne_zero hc]
  | result r => simp
  | tm r a vs _ => simp
  | ym r a vs _ => simp

/-- R24: whatever was in STATUS, a command leaves what R24 allows. -/
theorem CommandEnd.statusOk {s t : State} (h : CommandEnd s t) : StatusOk t.status := by
  cases h with
  | fault c a _ => exact statusOk_statusWord true c fun _ => rfl
  | result r => exact statusOk_statusWord _ .none fun h => absurd rfl h
  | tm r a vs _ => exact statusOk_statusWord _ .none fun h => absurd rfl h
  | ym r a vs _ => exact statusOk_statusWord _ .none fun h => absurd rfl h

/-! ### Memories -/

/-- A memory that has become another one of the same size, in canonical form if it was (R50). -/
def MemoryKept {w : Nat} (m m' : Memory w) : Prop :=
  m'.size = m.size ∧ (m.wf = true → m'.wf = true)

theorem MemoryKept.refl {w : Nat} (m : Memory w) : MemoryKept m m := ⟨rfl, id⟩

theorem MemoryKept.memoryOk {w : Nat} {m m' : Memory w} (h : MemoryKept m m') (hm : MemoryOk m) : MemoryOk m' := by
  obtain ⟨hsize, hwf⟩ := h
  obtain ⟨hmwf, hrange⟩ := hm
  exact ⟨hwf hmwf, hsize ▸ hrange⟩

theorem memoryKept_write {w : Nat} (m : Memory w) (a : Nat) (v : BitVec w) (ha : a < m.size) :
    MemoryKept m (m.write a v) :=
  ⟨write_size m a v, fun h => write_wf m a v h ha⟩

theorem memoryKept_writeAll {w : Nat} (m : Memory w) (a : Nat) (vs : List (BitVec w)) (ha : a + vs.length ≤ m.size) :
    MemoryKept m (m.writeAll a vs) :=
  ⟨writeAll_size m a vs, fun h => writeAll_wf m a vs h ha⟩

theorem memoryKept_freeAt {w : Nat} (free : Nat → BitVec w) (raced : List Nat) (m : Memory w)
    (hin : ∀ a ∈ raced, a < m.size) : MemoryKept m (m.freeAt free raced) :=
  ⟨freeAt_size free raced m, fun h => freeAt_wf free raced m h hin⟩

/-- R184: a write window is empty or lies in its memory. -/
theorem memoryKept_scramble {w : Nat} (m : Memory w) (free : Nat → BitVec w) (a n : Nat)
    (h : 0 < n → a + n ≤ m.size) : MemoryKept m (m.writeAll a (freeCells free a n)) := by
  cases n with
  | zero => exact .refl m
  | succ n => exact memoryKept_writeAll m a _ (by simpa using h n.succ_pos)

theorem tmWrites_fits (i : Instr) (s : State) (h : 0 < (tmWrites i s).2) :
    (tmWrites i s).1 + (tmWrites i s).2 ≤ s.tm.size := by
  cases i with
  | decode => exact cellsIn_fits _ _ h
  | encode => exact absurd h (by simp [tmWrites])
  | add => exact cellsIn_fits _ _ h
  | inc => exact cellsIn_fits _ _ h
  | tteval => exact absurd h (by simp [tmWrites])

theorem ymWrites_fits (i : Instr) (s : State) (h : 0 < (ymWrites i s).2) :
    (ymWrites i s).1 + (ymWrites i s).2 ≤ s.ym.size := by
  cases i with
  | encode => exact cellsIn_fits _ _ h
  | decode => exact absurd h (by simp [ymWrites])
  | add => exact absurd h (by simp [ymWrites])
  | inc => exact absurd h (by simp [ymWrites])
  | tteval => exact absurd h (by simp [ymWrites])

theorem CommandEnd.memoriesKept {s t : State} (h : CommandEnd s t) : MemoryKept s.tm t.tm ∧ MemoryKept s.ym t.ym := by
  cases h with
  | fault c a _ => exact ⟨.refl _, .refl _⟩
  | result r => exact ⟨.refl _, .refl _⟩
  | tm r a vs ha => exact ⟨memoryKept_writeAll _ a vs ha, .refl _⟩
  | ym r a vs ha => exact ⟨.refl _, memoryKept_writeAll _ a vs ha⟩

/-! ### What a host action can do -/

/-- What happens outside commands and resets: the report registers stay, and the memories are written only where they
have cells. -/
structure Quiet (s t : State) : Prop where
  status : t.status = s.status
  result : t.result = s.result
  faddr : t.faddr = s.faddr
  tm : MemoryKept s.tm t.tm
  ym : MemoryKept s.ym t.ym

theorem Quiet.refl (s : State) : Quiet s s := ⟨rfl, rfl, rfl, .refl _, .refl _⟩

theorem quiet_withTm {s : State} {m : Memory 2} (h : MemoryKept s.tm m) : Quiet s (s.withTm m) :=
  ⟨rfl, rfl, rfl, h, .refl _⟩

theorem quiet_withYm {s : State} {m : Memory 8} (h : MemoryKept s.ym m) : Quiet s (s.withYm m) :=
  ⟨rfl, rfl, rfl, .refl _, h⟩

/-- A run of a command word, plain or racing (log 6), up to what other agents leave in the raced cells. -/
structure CommandRun (s t : State) : Prop where
  ends : CommandEnd s t
  report : s.tm.size ≤ Config.maxCells → s.ym.size ≤ Config.maxCells → ReportOk t

theorem commandRun_illegal (s : State) : CommandRun s (raiseFault .illegalOp 0 s) :=
  ⟨.fault _ _ (by decide), fun htm hym => reportOk_raiseFault htm hym rfl⟩

theorem commandRun_runRacing (i : Instr) (tms yms : List Nat) (s : State) : CommandRun s (runRacing i tms yms s) :=
  ⟨runRacing_end i tms yms s, (runRacing_runEnd i tms yms s).reportOk⟩

theorem command_run (w : Word) (s t : State) (h : command w s = .next t) : CommandRun s t := by
  cases hw : decodeWord w with
  | ok i =>
    rw [command_legal w i s hw, exec_runRacing] at h
    cases h
    exact commandRun_runRacing i [] [] s
  | error e =>
    rw [command_illegal w e s hw] at h
    cases h
    exact commandRun_illegal s

/-- R28, R59: a write to a register number other than 0 stores an operand or does nothing. -/
theorem writeRegister_cases (n : Nat) (w : Word) (s t : State) (h : writeRegister n w s = .next t) :
    (n = 0 ∧ command w s = .next t) ∨ Quiet s t := by
  unfold writeRegister at h
  split at h
  case h_1 => exact .inl ⟨rfl, h⟩
  all_goals
    cases h
    exact .inr ⟨rfl, rfl, rfl, .refl _, .refl _⟩

theorem setTrit_quiet (a : Nat) (v : TritCell) (s t : State) (h : setTrit a v s = .next t) : Quiet s t := by
  unfold setTrit at h
  split at h
  case isTrue ha =>
    cases h
    exact quiet_withTm (memoryKept_write _ a v ha)
  case isFalse => cases h

theorem setTryte_quiet (a : Nat) (c : TryteCode) (s t : State) (h : setTryte a c s = .next t) : Quiet s t := by
  unfold setTryte at h
  split at h
  case isTrue ha =>
    cases h
    exact quiet_withYm (memoryKept_write _ a c ha)
  case isFalse => cases h

/-- R64: other agents leave free values in the raced cells, all of which exist. -/
theorem settle_quiet (tms yms : List Nat) (s : State) (ht : ∀ a ∈ tms, a < s.tm.size) (hy : ∀ a ∈ yms, a < s.ym.size) :
    Quiet s (settle tms yms s) :=
  ⟨rfl, rfl, rfl, memoryKept_freeAt _ tms _ ht, memoryKept_freeAt _ yms _ hy⟩

theorem racingCommand_cases (w : Word) (tms yms : List Nat) (s t : State) (h : racingCommand w tms yms s = .next t) :
    ∃ u, CommandRun s u ∧ Quiet u t := by
  unfold racingCommand at h
  split at h
  case h_1 => cases h
  case h_2 => cases h
  case h_3 htms hyms =>
    cases h
    rw [firstAbsent_eq_none] at htms hyms
    have hquiet (u : State) (hu : CommandRun s u) : Quiet u (settle tms yms u) := by
      obtain ⟨⟨htm, _⟩, ⟨hym, _⟩⟩ := hu.ends.memoriesKept
      exact settle_quiet tms yms u (by rwa [htm]) (by rwa [hym])
    unfold raceDuring
    cases decodeWord w with
    | ok i => exact ⟨_, commandRun_runRacing i tms yms s, hquiet _ (commandRun_runRacing i tms yms s)⟩
    | error e => exact ⟨_, commandRun_illegal s, hquiet _ (commandRun_illegal s)⟩

/-- R184: a reset during a command frees the command's write window first. -/
theorem resetDuring_cases (w : Word) (s : State) : ∃ u, Quiet s u ∧ resetDuring w s = u.resetRegisters := by
  unfold resetDuring
  cases decodeWord w with
  | error e => exact ⟨s.drawn, ⟨rfl, rfl, rfl, .refl _, .refl _⟩, rfl⟩
  | ok i =>
    exact ⟨((s.withTm (scrambleTm s (tmWrites i s))).withYm (scrambleYm s (ymWrites i s))).drawn,
      ⟨rfl, rfl, rfl, memoryKept_scramble _ _ _ _ (tmWrites_fits i s), memoryKept_scramble _ _ _ _ (ymWrites_fits i s)⟩,
      rfl⟩

/-- The two actions by which the platform resets TCORE (R180, R184). -/
def IsReset (act : HostAction) : Prop := act = .reset ∨ ∃ w, act = .resetDuringCommand w

/-- Everything a host action can do, as far as the report registers and the form of the memories go. -/
theorem perform_cases (act : HostAction) (s t : State) (h : perform act s = .next t) :
    Quiet s t ∨ (∃ u, CommandRun s u ∧ Quiet u t) ∨ (IsReset act ∧ ∃ u, Quiet s u ∧ t = u.resetRegisters) := by
  cases act with
  | writeReg n w =>
    rcases writeRegister_cases n w s t h with ⟨_, hcommand⟩ | hquiet
    · exact .inr (.inl ⟨t, command_run w s t hcommand, .refl t⟩)
    · exact .inl hquiet
  | readReg n => cases h; exact .inl ⟨rfl, rfl, rfl, .refl _, .refl _⟩
  | prepareTrit a v => exact .inl (setTrit_quiet a v s t h)
  | prepareTryte a c => exact .inl (setTryte_quiet a c s t h)
  | reset => cases h; exact .inr (.inr ⟨.inl rfl, s, .refl s, rfl⟩)
  | resetDuringCommand w =>
    cases h
    exact .inr (.inr ⟨.inr ⟨w, rfl⟩, resetDuring_cases w s⟩)
  | narrowAccess n => cases h
  | accessDuringCommand => cases h
  | raceDuringCommand w tms yms => exact .inr (.inl (racingCommand_cases w tms yms s t h))
  | raceTrit a =>
    obtain ⟨hstatus, hresult, hfaddr, htm, hym⟩ := setTrit_quiet a _ s.drawn t h
    exact .inl ⟨hstatus, hresult, hfaddr, htm, hym⟩
  | raceTryte a =>
    obtain ⟨hstatus, hresult, hfaddr, htm, hym⟩ := setTryte_quiet a _ s.drawn t h
    exact .inl ⟨hstatus, hresult, hfaddr, htm, hym⟩

/-! ### The invariant -/

/-- What O55 says of one step. -/
def KeepsInv (s t : State) : Prop := t.Inv ∧ t.tm.size = s.tm.size ∧ t.ym.size = s.ym.size

theorem Quiet.keepsInv {s t : State} (h : Quiet s t) (hinv : s.Inv) : KeepsInv s t := by
  obtain ⟨htm, hym, hstatus, hreport⟩ := hinv
  refine ⟨⟨h.tm.memoryOk htm, h.ym.memoryOk hym, h.status ▸ hstatus, ?_⟩, h.tm.1, h.ym.1⟩
  unfold ReportOk at hreport ⊢
  rwa [h.status, h.result, h.faddr, h.tm.1, h.ym.1]

theorem CommandRun.keepsInv {s t : State} (h : CommandRun s t) (hinv : s.Inv) : KeepsInv s t := by
  obtain ⟨htm, hym, _, _⟩ := hinv
  obtain ⟨_, _, htmSize⟩ := id htm
  obtain ⟨_, _, hymSize⟩ := id hym
  obtain ⟨htmKept, hymKept⟩ := h.ends.memoriesKept
  exact ⟨⟨htmKept.memoryOk htm, hymKept.memoryOk hym, h.ends.statusOk, h.report htmSize hymSize⟩,
    htmKept.1, hymKept.1⟩

/-- R181, R183: a reset reports nothing and leaves the memories. -/
theorem resetRegisters_keepsInv {s : State} (hinv : s.Inv) : KeepsInv s s.resetRegisters := by
  obtain ⟨htm, hym, _, _⟩ := hinv
  have hstatus : s.resetRegisters.status = statusWord false .none := zeroStatus_eq_statusWord
  refine ⟨⟨htm, hym, ?_, reportOk_of_noCause _ ?_ rfl⟩, rfl, rfl⟩
  · rw [hstatus]
    exact statusOk_statusWord false .none fun h => absurd rfl h
  · rw [hstatus, errField_statusWord]
    rfl

theorem KeepsInv.trans {s t u : State} (h : KeepsInv s t) (h' : t.Inv → KeepsInv t u) : KeepsInv s u := by
  obtain ⟨hinv, htm, hym⟩ := h
  obtain ⟨hinv', htm', hym'⟩ := h' hinv
  exact ⟨hinv', htm'.trans htm, hym'.trans hym⟩

theorem perform_keepsInv (act : HostAction) (s t : State) (hinv : s.Inv) (h : perform act s = .next t) :
    KeepsInv s t := by
  rcases perform_cases act s t h with hquiet | ⟨u, hrun, hquiet⟩ | ⟨_, u, hquiet, rfl⟩
  · exact hquiet.keepsInv hinv
  · exact (hrun.keepsInv hinv).trans hquiet.keepsInv
  · exact (hquiet.keepsInv hinv).trans resetRegisters_keepsInv

/-! ### ERR_ANY -/

/-- R24, R180: an action that is no reset leaves a set ERR_ANY set. -/
theorem perform_errAny_sticky (act : HostAction) (s t : State) (hreset : ¬ IsReset act) (h : perform act s = .next t)
    (hset : errAnyBit s.status = true) : errAnyBit t.status = true := by
  rcases perform_cases act s t h with hquiet | ⟨u, hrun, hquiet⟩ | ⟨hact, _⟩
  · rwa [hquiet.status]
  · rw [hquiet.status, hrun.ends.errAnyBit_eq, hset]
    rfl
  · exact absurd hact hreset

end Sys2Proof.Machine

namespace Sys2Proof.Proofs
open Sys2Proof.Machine

/-- Settles O55: with no action left nothing changes, and every action keeps the invariant; the list of actions that is
left is no part of it. -/
theorem stepKeepsInvariant : Obligations.StepKeepsInvariant := by
  intro s t hinv h
  cases hp : s.pending with
  | nil =>
    rw [step_idle s hp] at h
    cases h
    exact ⟨hinv, rfl, rfl⟩
  | cons act rest =>
    rw [step_action s act rest hp] at h
    exact perform_keepsInv act (s.withPending rest) t hinv h

/-- Settles O48: ERR_ANY outlives all but a reset, and a CMD write sets it by R170 and R171. -/
theorem errAnyClearedOnlyByReset : Obligations.ErrAnyClearedOnlyByReset := by
  refine ⟨fun s t act rest hp h hreset hduring hset => ?_, fun s t w rest hp h => ?_⟩
  · rw [step_action s act rest hp] at h
    refine perform_errAny_sticky act (s.withPending rest) t ?_ h hset
    rintro (hact | ⟨w, hact⟩)
    · exact hreset hact
    · exact hduring w hact
  · rw [step_command s w rest hp] at h
    exact (command_run w (s.withPending rest) t h).ends.errAnyBit_eq

end Sys2Proof.Proofs
end

section
/-! PROOF. O50: an operand register that a command ignores. Past its operands a meaning reads no operand register and
writes none, so it commutes with every update of operand registers; the obligation's seven cases differ only in which
operands the command takes (R76). -/

namespace Sys2Proof.Machine

/-- An update that the memories and both ends of a command pass by, as every update of operand registers is (R22). -/
structure OperandUpdate (f : State → State) : Prop where
  tm : ∀ s, (f s).tm = s.tm
  ym : ∀ s, (f s).ym = s.ym
  raiseFault : ∀ c a s, raiseFault c a (f s) = f (raiseFault c a s)
  complete : ∀ r s, complete r (f s) = f (complete r s)
  withTm : ∀ s m, (f s).withTm m = f (s.withTm m)
  withYm : ∀ s m, (f s).withYm m = f (s.withYm m)

/-- OPB replaced. -/
def State.withOpb (w : Word) (s : State) : State := { s with opb := w }

/-- OPC replaced. -/
def State.withOpc (w : Word) (s : State) : State := { s with opc := w }

/-- OPD replaced. -/
def State.withOpd (w : Word) (s : State) : State := { s with opd := w }

theorem operandUpdate_withOpb (w : Word) : OperandUpdate (State.withOpb w) :=
  ⟨fun _ => rfl, fun _ => rfl, fun _ _ _ => rfl, fun _ _ => rfl, fun _ _ => rfl, fun _ _ => rfl⟩

theorem operandUpdate_withOpc (w : Word) : OperandUpdate (State.withOpc w) :=
  ⟨fun _ => rfl, fun _ => rfl, fun _ _ _ => rfl, fun _ _ => rfl, fun _ _ => rfl, fun _ _ => rfl⟩

theorem operandUpdate_withOpd (w : Word) : OperandUpdate (State.withOpd w) :=
  ⟨fun _ => rfl, fun _ => rfl, fun _ _ _ => rfl, fun _ _ => rfl, fun _ _ => rfl, fun _ _ => rfl⟩

variable {f : State → State} (hf : OperandUpdate f)
include hf

/-! ### Past the operands -/

theorem decodeSeeing_update (checked used : Memory 8) (src dst count : Nat) (s : State) :
    decodeSeeing checked used src dst count (f s) = f (decodeSeeing checked used src dst count s) := by
  simp only [decodeSeeing, hf.tm, hf.ym, hf.raiseFault, hf.complete, hf.withTm, apply_ite f]
  cases firstBad (fun c => !validTryte c) src (trytesAt checked src count) <;> rfl

theorem encodeSeeing_update (checked used : Memory 2) (src dst len : Nat) (s : State) :
    encodeSeeing checked used src dst len (f s) = f (encodeSeeing checked used src dst len s) := by
  simp only [encodeSeeing, hf.tm, hf.ym, hf.raiseFault, hf.complete, hf.withYm, apply_ite f]
  cases firstBad (fun t => t == invalidTrit) src (tritsAt checked src len) <;> rfl

theorem addSeeing_update (checked used : Memory 2) (base len n : Nat) (s : State) :
    addSeeing checked used base len n (f s) = f (addSeeing checked used base len n s) := by
  simp only [addSeeing, hf.tm, hf.raiseFault, hf.complete, hf.withTm, apply_ite f]
  cases firstBad (fun t => t == invalidTrit) base (tritsAt checked base len) <;> rfl

theorem incSeeing_update (tested used : Memory 2) (base len : Nat) (s : State) :
    incSeeing tested used base len (f s) = f (incSeeing tested used base len s) := by
  simp only [incSeeing, incAt, hf.tm, hf.raiseFault, hf.complete, hf.withTm, apply_ite f]

/-! ### Commands whose operands the update leaves -/

variable (s : State)

theorem runDecode_update (ha : (f s).opa = s.opa) (hb : (f s).opb = s.opb) (hc : (f s).opc = s.opc) :
    runDecode (f s) = f (runDecode s) := by
  simp only [runDecode, runDecodeSeeing, ha, hb, hc, hf.ym, hf.raiseFault, decodeSeeing_update hf]
  cases natOperand s.opa <;> cases natOperand s.opb <;> cases natOperand s.opc <;> rfl

theorem runEncode_update (ha : (f s).opa = s.opa) (hb : (f s).opb = s.opb) (hc : (f s).opc = s.opc) :
    runEncode (f s) = f (runEncode s) := by
  simp only [runEncode, runEncodeSeeing, ha, hb, hc, hf.tm, hf.raiseFault, encodeSeeing_update hf]
  cases natOperand s.opa <;> cases natOperand s.opb <;> cases natOperand s.opc <;> rfl

theorem runAdd_update (ha : (f s).opa = s.opa) (hc : (f s).opc = s.opc) (hd : (f s).opd = s.opd) :
    runAdd (f s) = f (runAdd s) := by
  simp only [runAdd, runAddSeeing, ha, hc, hd, hf.tm, hf.raiseFault, addSeeing_update hf]
  cases natOperand s.opa <;> cases natOperand s.opc <;> cases natOperand s.opd <;> rfl

theorem runInc_update (ha : (f s).opa = s.opa) (hc : (f s).opc = s.opc) : runInc (f s) = f (runInc s) := by
  simp only [runInc, runIncSeeing, ha, hc, hf.tm, hf.raiseFault, incSeeing_update hf]
  cases natOperand s.opa <;> cases natOperand s.opc <;> rfl

theorem runTteval_update (ha : (f s).opa = s.opa) (hb : (f s).opb = s.opb) : runTteval (f s) = f (runTteval s) := by
  simp only [runTteval, ha, hb, hf.raiseFault, hf.complete]
  cases tritOperand s.opa <;> cases tritOperand s.opb <;> rfl

end Sys2Proof.Machine

namespace Sys2Proof.Proofs
open Sys2Proof.Machine

/-- Settles O50: each ignored register's update commutes with the command (R76). -/
theorem ignoredOperandsDoNotMatter : Obligations.IgnoredOperandsDoNotMatter := by
  intro s t w
  have hb := operandUpdate_withOpb w
  have hc := operandUpdate_withOpc w
  have hd := operandUpdate_withOpd w
  refine ⟨?decode, ?encode, ?add, ?incOpb, ?incOpd, ?ttevalOpc, ?ttevalOpd⟩
  case decode => rintro ⟨⟩; exact congrArg Host.Outcome.next (runDecode_update hd s rfl rfl rfl)
  case encode => rintro ⟨⟩; exact congrArg Host.Outcome.next (runEncode_update hd s rfl rfl rfl)
  case add => rintro ⟨⟩; exact congrArg Host.Outcome.next (runAdd_update hb s rfl rfl rfl)
  case incOpb => rintro ⟨⟩; exact congrArg Host.Outcome.next (runInc_update hb s rfl rfl)
  case incOpd => rintro ⟨⟩; exact congrArg Host.Outcome.next (runInc_update hd s rfl rfl)
  case ttevalOpc => rintro ⟨⟩; exact congrArg Host.Outcome.next (runTteval_update hc s rfl rfl)
  case ttevalOpd => rintro ⟨⟩; exact congrArg Host.Outcome.next (runTteval_update hd s rfl rfl)

end Sys2Proof.Proofs
end

section
/-! PROOF. O9, O10, O11, O18: what host accesses to the registers do. -/

namespace Sys2Proof.Machine

/-- R24: a read of STATUS lets bits 4..0 through and no other (log 15). -/
theorem statusRead_getLsbD (status : Word) (i : Nat) :
    (statusRead status).getLsbD i = (status.getLsbD i && decide (i < 5)) := by
  have hmask : ∀ j : Fin 32, (0x0000001F#32).getLsbD j.1 = decide (j.1 < 5) := by decide
  rw [statusRead, BitVec.getLsbD_and]
  rcases Nat.lt_or_ge i 32 with hi | hi
  · rw [hmask ⟨i, hi⟩]
  · simp [hi]

theorem statusRead_fields (status : Word) : (statusRead status).extractLsb' 0 5 = status.extractLsb' 0 5 := by
  apply BitVec.eq_of_getLsbD_eq
  intro i hi
  simp [statusRead_getLsbD, hi]

theorem statusRead_reserved (status : Word) : (statusRead status).extractLsb' 5 27 = 0#27 := by
  apply BitVec.eq_of_getLsbD_eq
  intro i hi
  simp [statusRead_getLsbD]

/-- R28: numbers from 8 on read 0. -/
theorem readRegister_from_eight (n : Nat) (s : State) (h : 8 ≤ n) : readRegister n s = 0#32 := by
  obtain ⟨k, rfl⟩ := Nat.exists_eq_add_of_le' h
  rfl

/-- R23, R24, R26, R28: a write to a number from 5 on stores nothing. -/
theorem writeRegister_from_five (n : Nat) (w : Word) (s : State) (h : 5 ≤ n) : writeRegister n w s = .next s := by
  obtain ⟨k, rfl⟩ := Nat.exists_eq_add_of_le' h
  rfl

end Sys2Proof.Machine

namespace Sys2Proof.Proofs
open Sys2Proof.Machine

/-- Settles O9: the word returned is `readRegister`'s, which the record of reads takes (log 2). -/
theorem hostReadReturnsRegister : Obligations.HostReadReturnsRegister := by
  intro s n rest hp
  refine ⟨readRegister n s, ?step, ?_, ?_, ?_, ?_, ?_, ?_, ?status, ?_, readRegister_from_eight n s⟩
  case step =>
    rw [step_action s _ rest hp, perform, readRegister_withPending]
    rfl
  case status =>
    rintro rfl
    exact ⟨statusRead_fields s.status, statusRead_reserved s.status⟩
  all_goals
    rintro rfl
    rfl

/-- Settles O10: one store per operand register. -/
theorem hostWriteStoresOperand : Obligations.HostWriteStoresOperand :=
  fun s w rest =>
    ⟨step_action s (.writeReg 1 w) rest, step_action s (.writeReg 2 w) rest, step_action s (.writeReg 3 w) rest,
      step_action s (.writeReg 4 w) rest⟩

/-- Settles O11: only the action leaves the list. -/
theorem hostWriteToOtherRegistersIgnored : Obligations.HostWriteToOtherRegistersIgnored :=
  fun s n w rest hn hp => (step_action s _ rest hp).trans (writeRegister_from_five n w _ hn)

/-- Settles O18: `perform` refuses both kinds of access by name (log 8). -/
theorem excludedAccessIsRefused : Obligations.ExcludedAccessIsRefused :=
  ⟨fun s n rest => step_action s (.narrowAccess n) rest, fun s rest => step_action s .accessDuringCommand rest⟩

end Sys2Proof.Proofs
end

section
/-! PROOF. O44, O45: the two ROMs are one-to-one. -/

namespace Sys2Proof.Machine

/-! ### The tryte ROM -/

/-- A triplet over {-1, 0, 1}, t0 first (R32). -/
def IsTriplet (p : Int × Int × Int) : Prop :=
  (-1 ≤ p.1 ∧ p.1 ≤ 1) ∧ (-1 ≤ p.2.1 ∧ p.2.1 ≤ 1) ∧ (-1 ≤ p.2.2 ∧ p.2.2 ≤ 1)

/-- The balanced value of a triplet (R14). -/
def tripletValue (p : Int × Int × Int) : Int := p.1 + 3 * p.2.1 + 9 * p.2.2

theorem isTriplet_of_trits {p : Int × Int × Int} (h0 : p.1 = -1 ∨ p.1 = 0 ∨ p.1 = 1)
    (h1 : p.2.1 = -1 ∨ p.2.1 = 0 ∨ p.2.1 = 1) (h2 : p.2.2 = -1 ∨ p.2.2 = 0 ∨ p.2.2 = 1) : IsTriplet p := by
  have range {v : Int} (h : v = -1 ∨ v = 0 ∨ v = 1) : -1 ≤ v ∧ v ≤ 1 := by omega
  exact ⟨range h0, range h1, range h2⟩

theorem tripletValue_range {p : Int × Int × Int} (h : IsTriplet p) : -13 ≤ tripletValue p ∧ tripletValue p ≤ 13 := by
  unfold IsTriplet at h
  unfold tripletValue
  omega

/-- R14: a balanced value names its trits. -/
theorem tripletValue_injective {p q : Int × Int × Int} (hp : IsTriplet p) (hq : IsTriplet q)
    (h : tripletValue p = tripletValue q) : p = q := by
  obtain ⟨a, b, c⟩ := p
  obtain ⟨a', b', c'⟩ := q
  simp only [IsTriplet, tripletValue, Prod.mk.injEq] at *
  omega

theorem isTriplet_tryteRow (i : Nat) : IsTriplet (tryteRow i) := by
  obtain ⟨h0, h1, h2⟩ := tryteRow_trits i
  exact isTriplet_of_trits h0 h1 h2

/-- R31: row i holds the balanced value i, or i - 27 from 14 on. -/
theorem tripletValue_tryteRow (i : Nat) (h : i < 27) :
    tripletValue (tryteRow i) = if i ≤ 13 then (i : Int) else (i : Int) - 27 := by
  have hrows : ∀ j : Fin 27,
      tripletValue (tryteRow j.1) = if j.1 ≤ 13 then (j.1 : Int) else (j.1 : Int) - 27 := by decide
  exact hrows ⟨i, h⟩

/-- R32: a triplet stands in the row that its balanced value selects. -/
theorem tryteRow_of_triplet {p : Int × Int × Int} (hp : IsTriplet p) :
    alphabetIndexOfValue (tripletValue p) < 27 ∧ tryteRow (alphabetIndexOfValue (tripletValue p)) = p := by
  have hrange := tripletValue_range hp
  have hindex : alphabetIndexOfValue (tripletValue p) < 27 := by
    unfold alphabetIndexOfValue
    omega
  refine ⟨hindex, tripletValue_injective (isTriplet_tryteRow _) hp ((tripletValue_tryteRow _ hindex).trans ?_)⟩
  unfold alphabetIndexOfValue
  omega

/-- R32: no two rows are the same triplet, as their balanced values differ. -/
theorem tryteRow_injective {i j : Nat} (hi : i < 27) (hj : j < 27) (h : tryteRow i = tryteRow j) : i = j := by
  have hvi := tripletValue_tryteRow i hi
  have hvj := tripletValue_tryteRow j hj
  rw [h, hvj] at hvi
  omega

/-! ### The alphabet -/

theorem alphaRom_length : alphaRom.length = 27 := rfl

theorem alphaAt_mem (i : Nat) (h : i < 27) : alphaAt i ∈ alphaRom := by
  unfold alphaAt
  rw [List.getD_eq_getElem _ _ (alphaRom_length ▸ h)]
  exact List.getElem_mem _

/-- R36: the valid codes are those of ALPHA: each stands at its own index. -/
theorem validTryte_iff_mem (c : TryteCode) : validTryte c = true ↔ c ∈ alphaRom := by
  constructor
  · intro h
    obtain ⟨hindex, hc⟩ := validTryte_spec c h
    exact hc ▸ alphaAt_mem _ hindex
  · intro h
    obtain ⟨i, hi, rfl⟩ := List.getElem_of_mem h
    rw [← List.getD_eq_getElem _ 0x39#8 hi]
    exact alphaAt_valid i

/-- R37: the index of the character at i is i. -/
theorem alphaIndex_alphaAt (i : Nat) (h : i < 27) : alphaIndex (alphaAt i) = i := by
  have hrows : ∀ j : Fin 27, alphaIndex (alphaAt j.1) = j.1 := by decide
  exact hrows ⟨i, h⟩

end Sys2Proof.Machine

namespace Sys2Proof.Proofs
open Sys2Proof.Machine

/-- Settles O44: the balanced value is one-to-one on triplets and on rows, and takes the same 27 values on both. -/
theorem tryteRomIsBijection : Obligations.TryteRomIsBijection := by
  refine ⟨rfl, tripletValue_tryteRow, fun a b c ha hb hc => ?_⟩
  obtain ⟨hindex, hrow⟩ := tryteRow_of_triplet (isTriplet_of_trits (p := (a, b, c)) ha hb hc)
  exact ⟨_, hindex, hrow, fun j hj hj' => tryteRow_injective hj hindex (hj'.trans hrow.symm)⟩

/-- Settles O45: every valid code stands in ALPHA at its index, and ALPHA holds no other. -/
theorem alphabetIndexInvertsRom : Obligations.AlphabetIndexInvertsRom :=
  ⟨alphaRom_length, validTryte_iff_mem, validTryte_spec, alphaIndex_alphaAt⟩

end Sys2Proof.Proofs
end

section
/-! PROOF. O16, O17, O19, O56: cells that the host prepares or that other agents race on, and addresses with no cell. -/

namespace Sys2Proof.Machine

theorem readTrit_write (m : Memory 2) (a : Nat) (v : TritCell) (b : Nat) :
    readTrit (m.write a v) b = if b = a then v else readTrit m b :=
  read_write _ m a v b

theorem readTryte_write (m : Memory 8) (a : Nat) (c : TryteCode) (b : Nat) :
    readTryte (m.write a c) b = if b = a then c else readTryte m b :=
  read_write _ m a c b

theorem setTrit_present {a : Nat} {s : State} (v : TritCell) (h : a < s.tm.size) :
    setTrit a v s = .next (s.withTm (s.tm.write a v)) :=
  if_pos h

theorem setTryte_present {a : Nat} {s : State} (c : TryteCode) (h : a < s.ym.size) :
    setTryte a c s = .next (s.withYm (s.ym.write a c)) :=
  if_pos h

theorem setTrit_absent {a : Nat} {s : State} (v : TritCell) (h : s.tm.size ≤ a) :
    setTrit a v s = .fault (.noSuchTrit a) :=
  if_neg (Nat.not_lt.2 h)

theorem setTryte_absent {a : Nat} {s : State} (c : TryteCode) (h : s.ym.size ≤ a) :
    setTryte a c s = .fault (.noSuchTryte a) :=
  if_neg (Nat.not_lt.2 h)

/-- R50: where some listed cell does not exist, the search finds one. -/
theorem firstAbsent_of_absent {size : Nat} {cells : List Nat} (h : ∃ a ∈ cells, size ≤ a) :
    ∃ a ∈ cells, size ≤ a ∧ firstAbsent size cells = some a := by
  cases hfound : firstAbsent size cells with
  | none =>
    obtain ⟨a, ha, hsize⟩ := h
    have hlt := (firstAbsent_eq_none size cells).1 hfound a ha
    omega
  | some a =>
    obtain ⟨hmem, hsize⟩ := firstAbsent_eq_some size a cells hfound
    exact ⟨a, hmem, hsize, rfl⟩

theorem racingCommand_absentTrit {w : Word} {tms yms : List Nat} {s : State} {a : Nat}
    (h : firstAbsent s.tm.size tms = some a) : racingCommand w tms yms s = .fault (.noSuchTrit a) := by
  simp only [racingCommand, h]

theorem racingCommand_absentTryte {w : Word} {tms yms : List Nat} {s : State} {a : Nat}
    (ht : firstAbsent s.tm.size tms = none) (hy : firstAbsent s.ym.size yms = some a) :
    racingCommand w tms yms s = .fault (.noSuchTryte a) := by
  simp only [racingCommand, ht, hy]

end Sys2Proof.Machine

namespace Sys2Proof.Proofs
open Sys2Proof.Machine

/-- Settles O16: the action is one write to a cell that exists. -/
theorem preparationWritesOneCell : Obligations.PreparationWritesOneCell := by
  refine ⟨fun s a v rest hp ha => ?_, fun s a c rest hp ha => ?_⟩
  · exact ⟨s.tm.write a v, (step_action s _ rest hp).trans (setTrit_present v ha), write_size ..,
      readTrit_write _ _ _⟩
  · exact ⟨s.ym.write a c, (step_action s _ rest hp).trans (setTryte_present c ha), write_size ..,
      readTryte_write _ _ _⟩

/-- Settles O19: the action is one write of this event's draw, after which the draw counts as taken (log 6). -/
theorem racedCellHoldsFreeValue : Obligations.RacedCellHoldsFreeValue := by
  refine ⟨fun s a rest hp ha => ?_, fun s a rest hp ha => ?_⟩
  · exact ⟨s.tm.write a (Config.freeTrit s.draws a), (step_action s _ rest hp).trans (setTrit_present _ ha),
      write_size .., readTrit_write _ _ _⟩
  · exact ⟨s.ym.write a (Config.freeTryte s.draws a), (step_action s _ rest hp).trans (setTryte_present _ ha),
      write_size .., readTryte_write _ _ _⟩

/-- Settles O17: single accesses fail their bounds test, and a list of raced cells stops at its first absent one, TM's
list first (log 7). -/
theorem absentCellStops : Obligations.AbsentCellStops := by
  refine ⟨fun s a v rest ha hp => ?trit, fun s a c rest ha hp => ?tryte,
    fun s w tms yms rest hp => ⟨fun htms => ?racedTrit, fun htms hyms => ?racedTryte⟩⟩
  case trit =>
    rcases hp with hp | hp
    · exact (step_action s _ rest hp).trans (setTrit_absent v ha)
    · exact (step_action s _ rest hp).trans (setTrit_absent _ ha)
  case tryte =>
    rcases hp with hp | hp
    · exact (step_action s _ rest hp).trans (setTryte_absent c ha)
    · exact (step_action s _ rest hp).trans (setTryte_absent _ ha)
  case racedTrit =>
    obtain ⟨a, hmem, hsize, hfirst⟩ := firstAbsent_of_absent htms
    exact ⟨a, hmem, hsize, (step_action s _ rest hp).trans (racingCommand_absentTrit hfirst)⟩
  case racedTryte =>
    obtain ⟨a, hmem, hsize, hfirst⟩ := firstAbsent_of_absent hyms
    exact ⟨a, hmem, hsize, (step_action s _ rest hp).trans
      (racingCommand_absentTryte ((firstAbsent_eq_none _ _).2 htms) hfirst)⟩

/-- Settles O56: a pass sees its own draw in the listed cells and the memory itself in the others (R64). -/
theorem racedPassesSeeFreeValues : Obligations.RacedPassesSeeFreeValues :=
  fun s pass raced a => ⟨readTrit_tmSeen pass raced s a, readTryte_ymSeen pass raced s a⟩

end Sys2Proof.Proofs
end

section
/-! PROOF. O52: no action looks at the actions that are to come after it, so they can be taken off a run. -/

namespace Sys2Proof.Machine

theorem command_withPending (w : Word) (s : State) (p : List HostAction) :
    command w (s.withPending p) = outcomeWithPending p (command w s) := by
  cases h : decodeWord w with
  | ok i => rw [command_legal w i _ h, command_legal w i _ h, exec_withPending]
  | error e =>
    rw [command_illegal w e _ h, command_illegal w e _ h]
    rfl

theorem writeRegister_withPending (n : Nat) (w : Word) (s : State) (p : List HostAction) :
    writeRegister n w (s.withPending p) = outcomeWithPending p (writeRegister n w s) := by
  match n with
  | 0 => exact command_withPending w s p
  | 1 | 2 | 3 | 4 => rfl
  | n + 5 => rfl

theorem setTrit_withPending (a : Nat) (v : TritCell) (s : State) (p : List HostAction) :
    setTrit a v (s.withPending p) = outcomeWithPending p (setTrit a v s) := by
  rcases Nat.lt_or_ge a s.tm.size with h | h
  · rw [setTrit_present v h, setTrit_present v (s := s.withPending p) h]
    rfl
  · rw [setTrit_absent v h, setTrit_absent v (s := s.withPending p) h]
    rfl

theorem setTryte_withPending (a : Nat) (c : TryteCode) (s : State) (p : List HostAction) :
    setTryte a c (s.withPending p) = outcomeWithPending p (setTryte a c s) := by
  rcases Nat.lt_or_ge a s.ym.size with h | h
  · rw [setTryte_present c h, setTryte_present c (s := s.withPending p) h]
    rfl
  · rw [setTryte_absent c h, setTryte_absent c (s := s.withPending p) h]
    rfl

theorem resetDuring_withPending (w : Word) (s : State) (p : List HostAction) :
    resetDuring w (s.withPending p) = (resetDuring w s).withPending p := by
  unfold resetDuring
  cases decodeWord w with
  | error e => rfl
  | ok i =>
    simp only [abandon, tmWrites_withPending, ymWrites_withPending]
    rfl

theorem perform_withPending (act : HostAction) (s : State) (p : List HostAction) :
    perform act (s.withPending p) = outcomeWithPending p (perform act s) := by
  cases act with
  | writeReg n w => exact writeRegister_withPending n w s p
  | readReg n =>
    simp only [perform, readRegister_withPending]
    rfl
  | prepareTrit a v => exact setTrit_withPending a v s p
  | prepareTryte a c => exact setTryte_withPending a c s p
  | reset => rfl
  | resetDuringCommand w => exact congrArg Host.Outcome.next (resetDuring_withPending w s p)
  | narrowAccess n => rfl
  | accessDuringCommand => rfl
  | raceDuringCommand w tms yms => exact racingCommand_withPending w tms yms s p
  | raceTrit a => exact setTrit_withPending a _ s.drawn p
  | raceTryte a => exact setTryte_withPending a _ s.drawn p

/-- R62: what a step does is fixed by its action; the actions that come later only stay on the list. -/
theorem step_withPending_cons (act : HostAction) (rest : List HostAction) (s : State) :
    step (s.withPending (act :: rest)) = outcomeWithPending rest (perform act s) := by
  rw [step_action _ act rest rfl, withPending_withPending, perform_withPending]

/-- R62: a run through the first actions of a list is the run through these alone, up to what is left on the list. -/
theorem run_withPending_append (first later : List HostAction) (s t : State)
    (h : Sys2Proof.core.run first.length (s.withPending (first ++ later)) = .next t) :
    t.pending = later ∧ Sys2Proof.core.run first.length (s.withPending first) = .next (t.withPending []) := by
  induction first generalizing s with
  | nil =>
    cases h
    exact ⟨rfl, rfl⟩
  | cons act rest ih =>
    have hall : step (s.withPending (act :: rest ++ later)) = outcomeWithPending (rest ++ later) (perform act s) :=
      step_withPending_cons act (rest ++ later) s
    have halone := step_withPending_cons act rest s
    rw [List.length_cons] at h ⊢
    cases hact : perform act s with
    | next u =>
      rw [hact] at hall halone
      rw [run_next _ _ _ hall] at h
      rw [run_next _ _ _ halone]
      exact ih u h
    | fault r =>
      rw [hact] at hall
      rw [run_fault _ _ _ hall] at h
      cases h
    | refused r =>
      rw [hact] at hall
      rw [run_refused _ _ _ hall] at h
      cases h

end Sys2Proof.Machine

namespace Sys2Proof.Proofs
open Sys2Proof.Machine

/-- Settles O52, by induction on the actions that run. -/
theorem laterActionsDoNotAffectEarlier : Obligations.LaterActionsDoNotAffectEarlier :=
  run_withPending_append

end Sys2Proof.Proofs
end

section
/-! PROOF. O15: the write windows of commands that can complete (R51). -/

namespace Sys2Proof.Machine

/-- R125: the chain's length is named by what it passes and where it stops. -/
theorem rippleLength_eq {m : Memory 2} {a n k : Nat} (hk : k ≤ n) (hones : ∀ j, j < k → tRead m (a + j) = 1)
    (hstop : tRead m (a + k) ≠ 1) : rippleLength (tritsAt m a n) = k := by
  obtain ⟨hle, hpassed, hend⟩ := rippleLength_spec m a n
  rcases Nat.lt_trichotomy (rippleLength (tritsAt m a n)) k with hlt | heq | hgt
  · exact absurd (hones _ hlt) (hend (by omega))
  · exact heq
  · exact absurd (hpassed k hgt) hstop

theorem IncReady.incReach_eq {s : State} {base len k : Nat} (h : IncReady s base len k) : incReach s = k := by
  obtain ⟨ha, hc, hfits, hk, _, hones, hcell⟩ := h
  have hstop : tRead s.tm (base + k) ≠ 1 := by omega
  simp only [incReach, (natOperand_eq_some _ _).2 ha, (natOperand_eq_some _ _).2 hc,
    if_neg (Nat.not_lt.2 hfits), rippleLength_eq hk hones hstop]

end Sys2Proof.Machine

namespace Sys2Proof.Proofs
open Sys2Proof.Machine

/-- Settles O15: each window starts at a natural and ends inside its memory, so that all of its cells exist. -/
theorem writeWindowsOfCompletingCommands : Obligations.WriteWindowsOfCompletingCommands := by
  refine ⟨fun s src dst count h => ⟨?decode, rfl⟩, fun s src dst len h => ⟨?encode, rfl⟩,
    fun s base len n h => ⟨?add, rfl⟩, fun s base len k h => ⟨?inc, rfl⟩, fun s => ⟨rfl, rfl⟩⟩
  case decode =>
    obtain ⟨_, hb, hc, _, hfits, _⟩ := h
    simp only [tmWrites, decodeWrites, sint32, hb, hc]
    exact cellsIn_fitting _ dst (3 * count) _ (by push_cast; rfl) hfits
  case encode =>
    obtain ⟨_, hb, hc, _, hfits, _⟩ := h
    simp only [ymWrites, encodeWrites, sint32, hb, hc]
    exact cellsIn_fitting _ dst ((len + 2) / 3) _ (by push_cast; rfl) hfits
  case add =>
    obtain ⟨ha, hc, _, hfits, _⟩ := h
    simp only [tmWrites, addWrites, sint32, ha, hc]
    exact cellsIn_fitting _ base len _ rfl hfits
  case inc =>
    have hreach := h.incReach_eq
    obtain ⟨ha, _, _, _, hcell, _⟩ := h
    simp only [tmWrites, incWrites, sint32, ha, hreach]
    exact cellsIn_fitting _ base (k + 1) _ (by push_cast; omega) (by omega)

end Sys2Proof.Proofs
end

section
/-! PROOF. O23, O27, O33: the pseudocode's sequential loops. A loop writes the cells from a first address upward, so it
is one `writeAll` of the list that the meaning forms (R63; log 10); the equations are of memories as data. -/

namespace Sys2Proof.Machine

/-! ### The loops as lists of cells -/

/-- R101's write pass. -/
theorem decodeLoop_eq_writeAll (ym : Memory 8) (src dst k i : Nat) (tm : Memory 2) :
    decodeLoop ym src dst k i tm = tm.writeAll (dst + 3 * i) (decodeTrytes (trytesAt ym (src + i) k)) := by
  induction k generalizing i tm with
  | zero => rfl
  | succ k ih =>
    rw [decodeLoop, ih (i + 1)]
    rfl

/-- R105's write pass. -/
theorem encodeLoop_eq_writeAll (tm : Memory 2) (src dst len k g : Nat) (ym : Memory 8) :
    encodeLoop tm src dst len k g ym =
      ym.writeAll (dst + g)
        ((List.range' g k).map fun g => alphaAt (alphabetIndexOfValue (encodeSum tm src len g))) := by
  induction k generalizing g ym with
  | zero => rfl
  | succ k ih =>
    rw [encodeLoop, ih (g + 1)]
    rfl

/-- R105: the characters ENCODE writes, group by group. -/
theorem encodeTrits_eq_map (tm : Memory 2) (src len : Nat) :
    encodeTrits (tritsAt tm src len) =
      (List.range' 0 (groupCount len)).map fun g => alphaAt (alphabetIndexOfValue (encodeSum tm src len g)) := by
  apply List.ext_getElem
  · simp [encodeTrits_length]
  · intro g hg _
    rw [encodeTrits_get tm src len g hg]
    simp

/-- A window is read alike after a write below it. -/
theorem tritsAt_write_below (m : Memory 2) (a : Nat) (v : TritCell) (n : Nat) :
    tritsAt (m.write a v) (a + 1) n = tritsAt m (a + 1) n :=
  window_congr _ _ _ _ _ fun i _ => read_write_ne _ m v (by omega)

/-- R121's carry chain reads each cell before it writes it and never reads below, so it may as well read first. -/
theorem addLoop_eq_writeAll (a k n : Nat) (m : Memory 2) :
    addLoop a k n m = (m.writeAll a (addDigits (tritsAt m a k) n), addCarry (tritsAt m a k) n) := by
  induction k generalizing a n m with
  | zero => rfl
  | succ k ih =>
    have hwindow : tritsAt m a (k + 1) = readTrit m a :: tritsAt m (a + 1) k := rfl
    rw [hwindow, addLoop]
    by_cases hsum : 1 < stageSum (readTrit m a) n
    · have hdigit : stageDigit (readTrit m a) n = tritCell (stageSum (readTrit m a) n - 3) := if_pos hsum
      have hcarry : stageCarry (readTrit m a) n = n / 3 + 1 := if_pos hsum
      rw [if_pos (show 1 < tRead m a + _ from hsum), ih, tritsAt_write_below, addDigits, addCarry, hdigit, hcarry]
      rfl
    · have hdigit : stageDigit (readTrit m a) n = tritCell (stageSum (readTrit m a) n) := if_neg hsum
      have hcarry : stageCarry (readTrit m a) n = n / 3 := if_neg hsum
      rw [if_neg (show ¬ 1 < tRead m a + _ from hsum), ih, tritsAt_write_below, addDigits, addCarry, hdigit, hcarry]
      rfl

/-! ### Commands on natural operands -/

theorem runDecodeSeeing_of_natural (checked used : Memory 8) {s : State} {src dst count : Nat}
    (ha : s.opa.toInt = src) (hb : s.opb.toInt = dst) (hc : s.opc.toInt = count) :
    runDecodeSeeing checked used s = decodeSeeing checked used src dst count s := by
  simp only [runDecodeSeeing, (natOperand_eq_some _ _).2 ha, (natOperand_eq_some _ _).2 hb,
    (natOperand_eq_some _ _).2 hc]

theorem runEncodeSeeing_of_natural (checked used : Memory 2) {s : State} {src dst len : Nat}
    (ha : s.opa.toInt = src) (hb : s.opb.toInt = dst) (hc : s.opc.toInt = len) :
    runEncodeSeeing checked used s = encodeSeeing checked used src dst len s := by
  simp only [runEncodeSeeing, (natOperand_eq_some _ _).2 ha, (natOperand_eq_some _ _).2 hb,
    (natOperand_eq_some _ _).2 hc]

theorem runAddSeeing_of_natural (checked used : Memory 2) {s : State} {base len n : Nat}
    (ha : s.opa.toInt = base) (hc : s.opc.toInt = len) (hd : s.opd.toInt = n) :
    runAddSeeing checked used s = addSeeing checked used base len n s := by
  simp only [runAddSeeing, (natOperand_eq_some _ _).2 ha, (natOperand_eq_some _ _).2 hc,
    (natOperand_eq_some _ _).2 hd]

theorem runIncSeeing_of_natural (tested used : Memory 2) {s : State} {base len : Nat}
    (ha : s.opa.toInt = base) (hc : s.opc.toInt = len) :
    runIncSeeing tested used s = incSeeing tested used base len s := by
  simp only [runIncSeeing, (natOperand_eq_some _ _).2 ha, (natOperand_eq_some _ _).2 hc]

/-! ### Commands that complete -/

/-- R171: the record of a completion that replaces TM. -/
theorem complete_withTm_eq (r : Word) (s : State) (m : Memory 2) :
    complete r (s.withTm m) = completionRecord s r m s.ym := by
  simp only [complete, completionRecord, withTm_status, statusAfterCompletion_eq]
  rfl

/-- R171: the record of a completion that replaces YM. -/
theorem complete_withYm_eq (r : Word) (s : State) (m : Memory 8) :
    complete r (s.withYm m) = completionRecord s r s.tm m := by
  simp only [complete, completionRecord, withYm_status, statusAfterCompletion_eq]
  rfl

theorem IsTrit.ne_invalid {m : Memory 2} {a : Nat} (h : IsTrit m a) : tRead m a ≠ -2 := by
  unfold IsTrit at h
  omega

theorem DecodeReady.exec_eq {s : State} {src dst count : Nat} (h : DecodeReady s src dst count) :
    exec .decode s =
      .next (complete 0#32 (s.withTm (s.tm.writeAll dst (decodeTrytes (trytesAt s.ym src count))))) := by
  obtain ⟨ha, hb, hc, hsrc, hdst, hvalid⟩ := h
  refine congrArg Host.Outcome.next ((runDecodeSeeing_of_natural s.ym s.ym ha hb hc).trans ?_)
  rcases decodeSeeing_cases s.ym s.ym src dst count s with ⟨_, hout⟩ | ⟨_, _, ⟨i, hi, _, hbad, _⟩ | ⟨hdone, _⟩⟩
  · omega
  · exact absurd (hvalid i hi) (by simp [hbad])
  · exact hdone

theorem EncodeReady.exec_eq {s : State} {src dst len : Nat} (h : EncodeReady s src dst len) :
    exec .encode s =
      .next (complete 0#32 (s.withYm (s.ym.writeAll dst (encodeTrits (tritsAt s.tm src len))))) := by
  obtain ⟨ha, hb, hc, hsrc, hdst, htrits⟩ := h
  refine congrArg Host.Outcome.next ((runEncodeSeeing_of_natural s.tm s.tm ha hb hc).trans ?_)
  rcases encodeSeeing_cases s.tm s.tm src dst len s with ⟨_, hout⟩ | ⟨_, _, ⟨i, hi, _, hbad, _⟩ | ⟨hdone, _⟩⟩
  · unfold groupCount at hout
    omega
  · exact absurd hbad (htrits i hi).ne_invalid
  · exact hdone

theorem AddReady.exec_eq {s : State} {base len n : Nat} (h : AddReady s base len n) :
    exec .add s =
      .next (complete (word32 (addCarry (tritsAt s.tm base len) n))
        (s.withTm (s.tm.writeAll base (addDigits (tritsAt s.tm base len) n)))) := by
  obtain ⟨ha, hc, hd, hfits, htrits⟩ := h
  refine congrArg Host.Outcome.next ((runAddSeeing_of_natural s.tm s.tm ha hc hd).trans ?_)
  rcases addSeeing_cases s.tm s.tm base len n s with ⟨_, hout⟩ | ⟨_, ⟨i, hi, _, hbad, _⟩ | ⟨hdone, _⟩⟩
  · omega
  · exact absurd hbad (htrits i hi).ne_invalid
  · exact hdone

end Sys2Proof.Machine

namespace Sys2Proof.Proofs
open Sys2Proof.Machine

/-- Settles O23: the loop's cells are DECODE's list. -/
theorem decodeRunsPseudocodeLoop : Obligations.DecodeRunsPseudocodeLoop := by
  intro s src dst count h
  rw [h.exec_eq, complete_withTm_eq, decodeLoop_eq_writeAll]
  rfl

/-- Settles O27: the loop's cells are ENCODE's list, group by group. -/
theorem encodeRunsPseudocodeLoop : Obligations.EncodeRunsPseudocodeLoop := by
  intro s src dst len h
  rw [h.exec_eq, complete_withYm_eq, encodeLoop_eq_writeAll, encodeTrits_eq_map]
  rfl

/-- Settles O33: the loop's cells and its last carry are ADD's. -/
theorem addRunsPseudocodeLoop : Obligations.AddRunsPseudocodeLoop := by
  intro s base len n h
  rw [h.exec_eq, complete_withTm_eq, addLoop_eq_writeAll]

end Sys2Proof.Proofs
end

section
/-! PROOF. O46 and O58: a command writes only inside its window. One frame lemma per command covers the plain and the
racing form (log 6); what a race adds is the free draws in the raced cells. -/

namespace Sys2Proof.Machine

/-! ### Windows of operands -/

/-- Cell `a` lies outside the window that starts at operand `lo` and has `width n` cells for the operand `n` in `len`;
with a negative operand there is no window (R51, R162). -/
def OutsideWindow (width : Nat → Nat) (lo len : Word) (a : Nat) : Prop :=
  ∀ b n : Nat, lo.toInt = b → len.toInt = n → a < b ∨ b + width n ≤ a

/-- The TM cells that a command never writes (R51); INC's window is taken up to its boundary cell. -/
def TmOutside (i : Instr) (s : State) (a : Nat) : Prop :=
  match i with
  | .decode => OutsideWindow (3 * ·) s.opb s.opc a
  | .encode => True
  | .add => OutsideWindow id s.opa s.opc a
  | .inc => OutsideWindow (· + 1) s.opa s.opc a
  | .tteval => True

/-- The YM cells that a command never writes (R51). -/
def YmOutside (i : Instr) (s : State) (a : Nat) : Prop :=
  match i with
  | .encode => OutsideWindow groupCount s.opb s.opc a
  | .decode | .add | .inc | .tteval => True

/-- Every cell outside the command's windows reads in `t` as in `s`. -/
structure WritesInside (i : Instr) (s t : State) : Prop where
  tm : ∀ a, TmOutside i s a → readTrit t.tm a = readTrit s.tm a
  ym : ∀ a, YmOutside i s a → readTryte t.ym a = readTryte s.ym a

/-! ### The ends of a command -/

/-- R169: a fault writes no cell. -/
theorem writesInside_raiseFault (i : Instr) (c : Cause) (a : Nat) (s : State) : WritesInside i s (raiseFault c a s) :=
  ⟨fun _ _ => rfl, fun _ _ => rfl⟩

theorem writesInside_complete (i : Instr) (r : Word) (s : State) : WritesInside i s (complete r s) :=
  ⟨fun _ _ => rfl, fun _ _ => rfl⟩

theorem readTrit_writeAll_outside {m : Memory 2} {lo a : Nat} {vs : List TritCell}
    (h : a < lo ∨ lo + vs.length ≤ a) : readTrit (m.writeAll lo vs) a = readTrit m a := by
  rw [readTrit_writeAll, dif_neg (by omega)]

theorem readTryte_writeAll_outside {m : Memory 8} {lo a : Nat} {vs : List TryteCode}
    (h : a < lo ∨ lo + vs.length ≤ a) : readTryte (m.writeAll lo vs) a = readTryte m a := by
  rw [readTryte_writeAll, dif_neg (by omega)]

theorem writesInside_tm {i : Instr} {s : State} {lo : Nat} {vs : List TritCell} (r : Word)
    (h : ∀ a, TmOutside i s a → a < lo ∨ lo + vs.length ≤ a) :
    WritesInside i s (complete r (s.withTm (s.tm.writeAll lo vs))) :=
  ⟨fun a ha => readTrit_writeAll_outside (h a ha), fun _ _ => rfl⟩

theorem writesInside_ym {i : Instr} {s : State} {lo : Nat} {vs : List TryteCode} (r : Word)
    (h : ∀ a, YmOutside i s a → a < lo ∨ lo + vs.length ≤ a) :
    WritesInside i s (complete r (s.withYm (s.ym.writeAll lo vs))) :=
  ⟨fun _ _ => rfl, fun a ha => readTryte_writeAll_outside (h a ha)⟩

/-! ### One frame per command -/

theorem runDecodeSeeing_writesInside (checked used : Memory 8) (s : State) :
    WritesInside .decode s (runDecodeSeeing checked used s) := by
  rcases runDecodeSeeing_cases checked used s with ⟨h, _⟩ | ⟨src, dst, count, _, hb, hc, h⟩
  · rw [h]; exact writesInside_raiseFault ..
  rw [h]
  rcases decodeSeeing_cases checked used src dst count s with ⟨h, _⟩ | ⟨_, _, ⟨i, _, h, _⟩ | ⟨h, _⟩⟩
  · rw [h]; exact writesInside_raiseFault ..
  · rw [h]; exact writesInside_raiseFault ..
  · rw [h]; exact writesInside_tm _ fun a ha => by simpa using ha dst count hb hc

theorem runEncodeSeeing_writesInside (checked used : Memory 2) (s : State) :
    WritesInside .encode s (runEncodeSeeing checked used s) := by
  rcases runEncodeSeeing_cases checked used s with ⟨h, _⟩ | ⟨src, dst, len, _, hb, hc, h⟩
  · rw [h]; exact writesInside_raiseFault ..
  rw [h]
  rcases encodeSeeing_cases checked used src dst len s with ⟨h, _⟩ | ⟨_, _, ⟨i, _, h, _⟩ | ⟨h, _⟩⟩
  · rw [h]; exact writesInside_raiseFault ..
  · rw [h]; exact writesInside_raiseFault ..
  · rw [h]; exact writesInside_ym _ fun a ha => by simpa [encodeTrits_length] using ha dst len hb hc

theorem runAddSeeing_writesInside (checked used : Memory 2) (s : State) :
    WritesInside .add s (runAddSeeing checked used s) := by
  rcases runAddSeeing_cases checked used s with ⟨h, _⟩ | ⟨base, len, n, ha, hc, _, h⟩
  · rw [h]; exact writesInside_raiseFault ..
  rw [h]
  rcases addSeeing_cases checked used base len n s with ⟨h, _⟩ | ⟨_, ⟨i, _, h, _⟩ | ⟨h, _⟩⟩
  · rw [h]; exact writesInside_raiseFault ..
  · rw [h]; exact writesInside_raiseFault ..
  · rw [h]; exact writesInside_tm _ fun a hout => by simpa using hout base len ha hc

theorem runIncSeeing_writesInside (tested used : Memory 2) (s : State) :
    WritesInside .inc s (runIncSeeing tested used s) := by
  rcases runIncSeeing_cases tested used s with ⟨h, _⟩ | ⟨base, len, ha, hc, h⟩
  · rw [h]; exact writesInside_raiseFault ..
  rw [h]
  rcases incSeeing_cases tested used base len s with
    ⟨h, _⟩ | ⟨_, k, hk, _, _, ⟨h, _⟩ | ⟨_, ⟨h, _⟩ | ⟨h, _⟩ | ⟨h, _⟩⟩⟩
  · rw [h]; exact writesInside_raiseFault ..
  · rw [h]; exact writesInside_raiseFault ..
  · rw [h]; exact writesInside_raiseFault ..
  · rw [h]; exact writesInside_raiseFault ..
  · rw [h]
    refine writesInside_tm _ fun a hout => ?_
    have hcell : a < base ∨ base + (len + 1) ≤ a := hout base len ha hc
    simp only [List.length_append, List.length_replicate, List.length_singleton]
    omega

theorem runTteval_writesInside (s : State) : WritesInside .tteval s (runTteval s) := by
  rcases runTteval_cases s with ⟨h, _⟩ | ⟨x1, x2, _, _, h⟩
  · rw [h]; exact writesInside_raiseFault ..
  · rw [h]; exact writesInside_complete ..

theorem runRacing_writesInside (i : Instr) (tms yms : List Nat) (s : State) :
    WritesInside i s (runRacing i tms yms s) := by
  cases i with
  | decode => exact runDecodeSeeing_writesInside _ _ s
  | encode => exact runEncodeSeeing_writesInside _ _ s
  | add => exact runAddSeeing_writesInside _ _ s
  | inc => exact runIncSeeing_writesInside _ _ s
  | tteval => exact runTteval_writesInside s

/-- A command with no race is a run that races on no cell. -/
theorem exec_writesInside {i : Instr} {s t : State} (h : exec i s = .next t) : WritesInside i s t := by
  rw [exec_runRacing] at h
  cases h
  exact runRacing_writesInside i [] [] s

/-! ### Racing commands -/

/-- R22: a command writes no operand, and none of the model's own records (log 1, log 2, log 5). -/
theorem CommandEnd.rest_kept {s t : State} (h : CommandEnd s t) :
    t.opa = s.opa ∧ t.opb = s.opb ∧ t.opc = s.opc ∧ t.opd = s.opd ∧ t.readData = s.readData ∧ t.draws = s.draws := by
  cases h with
  | fault c a _ => exact ⟨rfl, rfl, rfl, rfl, rfl, rfl⟩
  | result r => exact ⟨rfl, rfl, rfl, rfl, rfl, rfl⟩
  | tm r a vs _ => exact ⟨rfl, rfl, rfl, rfl, rfl, rfl⟩
  | ym r a vs _ => exact ⟨rfl, rfl, rfl, rfl, rfl, rfl⟩

/-- R22, R64: nor does the race that the command runs in, which takes its three draws (log 6). -/
theorem CommandEnd.rest_kept_in_race {s u t : State} (h : CommandEnd s u) (tms yms : List Nat) (rest : List HostAction)
    (ht : t = (settle tms yms u).withPending rest) :
    t.readData = s.readData ∧ t.draws = s.draws + 3 ∧ t.opa = s.opa ∧ t.opb = s.opb ∧ t.opc = s.opc ∧ t.opd = s.opd ∧
      t.tm.size = s.tm.size ∧ t.ym.size = s.ym.size := by
  obtain ⟨hopa, hopb, hopc, hopd, hread, hdraws⟩ := h.rest_kept
  obtain ⟨⟨htm, _⟩, ⟨hym, _⟩⟩ := h.memoriesKept
  simp [ht, hread, hdraws, hopa, hopb, hopc, hopd, htm, hym]

/-- A racing command on cells that exist runs, and takes its action off the list. -/
theorem step_racing {s : State} {w : Word} {tms yms : List Nat} {rest : List HostAction}
    (hp : s.pending = .raceDuringCommand w tms yms :: rest) (ht : ∀ a ∈ tms, a < s.tm.size)
    (hy : ∀ a ∈ yms, a < s.ym.size) : step s = .next ((raceDuring w tms yms s).withPending rest) := by
  rw [step_action s _ rest hp, ← raceDuring_withPending]
  exact racingCommand_next w tms yms (s.withPending rest) ht hy

theorem raceDuring_legal {w : Word} {i : Instr} (h : decodeWord w = .ok i) (tms yms : List Nat) (s : State) :
    raceDuring w tms yms s = settle tms yms (runRacing i tms yms s) := by
  simp only [raceDuring, h]

theorem raceDuring_illegal {w : Word} {e : DecodeError} (h : decodeWord w = .error e) (tms yms : List Nat) (s : State) :
    raceDuring w tms yms s = settle tms yms (raiseFault .illegalOp 0 s) := by
  simp only [raceDuring, h]

/-- What a racing command word runs before the raced cells are left free: it ends as a command does, and an illegal word
writes no cell (R161). -/
theorem raceDuring_run (w : Word) (tms yms : List Nat) (s : State) :
    ∃ u, raceDuring w tms yms s = settle tms yms u ∧ CommandEnd s u ∧ RunEnd tms s u ∧
      (∀ a, (∀ i, decodeWord w = .ok i → TmOutside i s a) → readTrit u.tm a = readTrit s.tm a) ∧
      (∀ a, (∀ i, decodeWord w = .ok i → YmOutside i s a) → readTryte u.ym a = readTryte s.ym a) := by
  cases hw : decodeWord w with
  | ok i =>
    obtain ⟨htm, hym⟩ := runRacing_writesInside i tms yms s
    exact ⟨_, raceDuring_legal hw tms yms s, runRacing_end i tms yms s, runRacing_runEnd i tms yms s,
      fun a ha => htm a (ha i rfl), fun a ha => hym a (ha i rfl)⟩
  | error e =>
    exact ⟨_, raceDuring_illegal hw tms yms s, .fault _ _ (by decide), .fault _ _ rfl, fun _ _ => rfl, fun _ _ => rfl⟩

theorem readTrit_settle (tms yms : List Nat) (s : State) (a : Nat) :
    readTrit (settle tms yms s).tm a = if a ∈ tms then Config.freeTrit (s.draws + 2) a else readTrit s.tm a :=
  read_freeAt _ _ _ _ _

theorem readTryte_settle (tms yms : List Nat) (s : State) (a : Nat) :
    readTryte (settle tms yms s).ym a = if a ∈ yms then Config.freeTryte (s.draws + 2) a else readTryte s.ym a :=
  read_freeAt _ _ _ _ _

theorem readTrit_settle_unraced {tms : List Nat} {a : Nat} (h : a ∉ tms) (yms : List Nat) (s : State) :
    readTrit (settle tms yms s).tm a = readTrit s.tm a :=
  (readTrit_settle tms yms s a).trans (if_neg h)

theorem readTryte_settle_unraced {yms : List Nat} {a : Nat} (h : a ∉ yms) (tms : List Nat) (s : State) :
    readTryte (settle tms yms s).ym a = readTryte s.ym a :=
  (readTryte_settle tms yms s a).trans (if_neg h)

/-- R64: a race on no cell leaves the command's outcome, and takes its three draws (log 6). -/
theorem raceDuring_nil {w : Word} {s t : State} (h : command w s = .next t) :
    raceDuring w [] [] s = { t with draws := t.draws + 3 } := by
  cases hw : decodeWord w with
  | ok i =>
    rw [command_legal w i s hw, exec_runRacing] at h
    cases h
    rw [raceDuring_legal hw, settle_nil]
  | error e =>
    rw [command_illegal w e s hw] at h
    cases h
    rw [raceDuring_illegal hw, settle_nil]

end Sys2Proof.Machine

namespace Sys2Proof.Proofs
open Sys2Proof.Machine

/-- Settles O46: the frame of each command, for no race. -/
theorem commandsWriteOnlyTheirWindows : Obligations.CommandsWriteOnlyTheirWindows := by
  refine ⟨fun s t h => ?encode, fun s t h => ?add, fun s t h => ?inc, fun s t h => ?tteval⟩
  all_goals obtain ⟨htm, hym⟩ := exec_writesInside h
  case encode => exact ⟨fun a => htm a trivial, fun a ha => hym a ha⟩
  case add => exact ⟨fun a => hym a trivial, fun a ha => htm a ha⟩
  case inc => exact ⟨fun a => hym a trivial, fun a ha => htm a ha⟩
  case tteval => exact ⟨fun a => htm a trivial, fun a => hym a trivial⟩

/-- Settles O57: both steps run the same meaning. -/
theorem raceOnNoCellIsTheCommand : Obligations.RaceOnNoCellIsTheCommand := by
  intro s w rest hp
  obtain ⟨t, ht, _⟩ := command_end w (s.withPending rest)
  refine ⟨t, (step_command _ w rest rfl).trans ht, ?_⟩
  rw [step_racing hp (by simp) (by simp), ← raceDuring_withPending, raceDuring_nil ht]

/-- Settles O58: the run's frame and stored codes, seen through the free draws that the race leaves. -/
theorem racedCellsEndFree : Obligations.RacedCellsEndFree := by
  intro s w tms yms rest hp ht hy
  obtain ⟨u, hrace, hend, hrun, htm, hym⟩ := raceDuring_run w tms yms s
  obtain ⟨_, _, _, _, _, hdraws⟩ := hend.rest_kept
  obtain ⟨hread, hcount, hopa, hopb, hopc, hopd, htmSize, hymSize⟩ := hend.rest_kept_in_race tms yms rest rfl
  rw [step_racing hp ht hy, hrace]
  refine ⟨_, rfl, rfl, hread, hcount, hopa, hopb, hopc, hopd, htmSize, hymSize, fun a ha => ?racedTrit,
    fun a ha => ?racedTryte, fun a ha hdecode hadd hinc => ?keptTrit, fun a ha hencode => ?keptTryte,
    fun a ha hinvalid => ?noInvalid, fun a ha => ?validCode⟩
  case racedTrit =>
    rw [withPending_tm, readTrit_settle, if_pos ha, hdraws]
  case racedTryte =>
    rw [withPending_ym, readTryte_settle, if_pos ha, hdraws]
  case keptTrit =>
    refine (readTrit_settle_unraced ha yms u).trans (htm a fun i hi => ?_)
    cases i with
    | decode =>
      have hout := hdecode hi
      exact fun b n hb hn => show a < b ∨ b + 3 * n ≤ a by omega
    | encode => trivial
    | add =>
      have hout := hadd hi
      exact fun b n hb hn => show a < b ∨ b + n ≤ a by omega
    | inc =>
      have hout := hinc hi
      exact fun b n hb hn => show a < b ∨ b + (n + 1) ≤ a by omega
    | tteval => trivial
  case keptTryte =>
    refine (readTryte_settle_unraced ha tms u).trans (hym a fun i hi => ?_)
    cases i with
    | encode =>
      have hout := hencode hi
      exact fun b n hb hn => show a < b ∨ b + (n + 2) / 3 ≤ a by omega
    | decode | add | inc | tteval => trivial
  case noInvalid =>
    refine hrun.invalidTrit_before a ha ?_
    rwa [withPending_tm, tRead, readTrit_settle_unraced ha] at hinvalid
  case validCode =>
    rw [withPending_ym, readTryte_settle_unraced ha]
    exact hrun.tryte_kept_or_valid a

end Sys2Proof.Proofs
end

section
/-! PROOF. O59, O60: a racing command checks one read of a cell and computes with another (R64; log 6). The step is
taken apart once per command, into what the two passes see and what unraced cells hold afterwards. -/

namespace Sys2Proof.Machine

/-! ### What a race leaves of a command's end -/

/-- A racing command that ends in a fault: the report of R170, and every unraced cell kept (R169). -/
structure RacedFault (tms yms : List Nat) (code : BitVec 4) (faddr : Nat) (s t : State) : Prop where
  result : t.result = 0#32
  status : t.status = 0#27 ++ 1#1 ++ code
  faddr : t.faddr = BitVec.ofNat 32 faddr
  tm : ∀ a, a ∉ tms → readTrit t.tm a = readTrit s.tm a
  ym : ∀ a, a ∉ yms → readTryte t.ym a = readTryte s.ym a

/-- A racing command that completes: the report of R171, and unraced cells as in the memories it wrote. -/
structure RacedCompletion (tms yms : List Nat) (r : Word) (tm : Memory 2) (ym : Memory 8) (s t : State) : Prop where
  result : t.result = r
  status : t.status = 0#27 ++ s.status.extractLsb' 4 1 ++ 0#4
  faddr : t.faddr = 0#32
  tm : ∀ a, a ∉ tms → readTrit t.tm a = readTrit tm a
  ym : ∀ a, a ∉ yms → readTryte t.ym a = readTryte ym a

variable {tms yms : List Nat} {rest : List HostAction} {s : State}

theorem racedFault_settle {u : State} {c : Cause} {a : Nat} (h : u = raiseFault c a s) :
    RacedFault tms yms c.code a s ((settle tms yms u).withPending rest) := by
  subst h
  refine ⟨?_, ?_, ?_, fun b hb => readTrit_settle_unraced hb yms _, fun b hb => readTryte_settle_unraced hb tms _⟩
  · rw [withPending_result, settle_result, raiseFault_result]
  · rw [withPending_status, settle_status, raiseFault_status, statusAfterFault_eq]
  · rw [withPending_faddr, settle_faddr, raiseFault_faddr, word32_natCast]

theorem racedCompletion_settle {u : State} {r : Word} {m : Memory 2} {y : Memory 8}
    (h : u = complete r ((s.withTm m).withYm y)) :
    RacedCompletion tms yms r m y s ((settle tms yms u).withPending rest) := by
  subst h
  refine ⟨?_, ?_, ?_, fun b hb => readTrit_settle_unraced hb yms _, fun b hb => readTryte_settle_unraced hb tms _⟩
  · rw [withPending_result, settle_result, complete_result]
  · rw [withPending_status, settle_status, complete_status, statusAfterCompletion_eq, withYm_status, withTm_status]
  · rw [withPending_faddr, settle_faddr, complete_faddr]

theorem RacedCompletion.tRead {r : Word} {m : Memory 2} {y : Memory 8} {t : State}
    (h : RacedCompletion tms yms r m y s t) {a : Nat} (ha : a ∉ tms) : tRead t.tm a = tRead m a :=
  congrArg tritValue (h.tm a ha)

/-- The step of a racing command whose run is known. -/
theorem step_racing_legal {w : Word} {i : Instr} {u : State} (hp : s.pending = .raceDuringCommand w tms yms :: rest)
    (ht : ∀ a ∈ tms, a < s.tm.size) (hy : ∀ a ∈ yms, a < s.ym.size) (hw : decodeWord w = .ok i)
    (hrun : runRacing i tms yms s = u) : step s = .next ((settle tms yms u).withPending rest) := by
  rw [step_racing hp ht hy, raceDuring_legal hw, hrun]

/-! ### DECODE -/

/-- R101: DECODE's window after its writes, as trits. -/
theorem tRead_decoded (m : Memory 2) (y : Memory 8) (src dst count i : Nat) (hi : i < count) :
    tRead (m.writeAll dst (decodeTrytes (trytesAt y src count))) (dst + 3 * i) =
        (tryteRow (alphaIndex (readTryte y (src + i)))).1 ∧
      tRead (m.writeAll dst (decodeTrytes (trytesAt y src count))) (dst + 3 * i + 1) =
        (tryteRow (alphaIndex (readTryte y (src + i)))).2.1 ∧
      tRead (m.writeAll dst (decodeTrytes (trytesAt y src count))) (dst + 3 * i + 2) =
        (tryteRow (alphaIndex (readTryte y (src + i)))).2.2 := by
  obtain ⟨h0, h1, h2⟩ := tryteRow_trits (alphaIndex (readTryte y (src + i)))
  have hcell (k : Nat) (hk : k < 3) := congrArg tritValue (readTrit_decoded m y src dst count i k hi hk)
  exact ⟨(hcell 0 (by decide)).trans (tritValue_tritCell _ (.inr h0)),
    (hcell 1 (by decide)).trans (tritValue_tritCell _ (.inr h1)),
    (hcell 2 (by decide)).trans (tritValue_tritCell _ (.inr h2))⟩

/-- R31, R64: the row that DECODE's write pass looks up, for a code that its check pass let through (log 18). -/
theorem alphaIndex_ymLookedUp (a : Nat) (hchecked : validTryte (readTryte (ymSeen 0 yms s) a) = true) :
    alphaIndex (readTryte (ymLookedUp yms s) a) < 27 ∧
      (validTryte (readTryte (ymSeen 1 yms s) a) = true →
        alphaIndex (readTryte (ymLookedUp yms s) a) = alphaIndex (readTryte (ymSeen 1 yms s) a)) ∧
      (validTryte (readTryte (ymSeen 1 yms s) a) = false →
        alphaIndex (readTryte (ymLookedUp yms s) a) = (Config.freeRow (s.draws + 1) a).val) := by
  by_cases ha : a ∈ yms
  · rw [readTryte_ymLookedUp, readTryte_ymSeen, if_pos ha, if_pos ha, alphaIndex_lookedUp]
    cases hcode : validTryte (Config.freeTryte (s.draws + 1) a) with
    | true => exact ⟨(validTryte_spec _ hcode).1, fun _ => rfl, fun h => absurd h (by decide)⟩
    | false => exact ⟨(Config.freeRow (s.draws + 1) a).isLt, fun h => absurd h (by decide), fun _ => rfl⟩
  · rw [readTryte_ymSeen, if_neg ha] at hchecked
    rw [readTryte_ymLookedUp, readTryte_ymSeen, if_neg ha, if_neg ha]
    exact ⟨(validTryte_spec _ hchecked).1, fun _ => rfl, fun h => absurd (hchecked.symm.trans h) (by decide)⟩

theorem step_racingDecode {src dst count : Nat} (hp : s.pending = .raceDuringCommand 0x00000001#32 tms yms :: rest)
    (ht : ∀ a ∈ tms, a < s.tm.size) (hy : ∀ a ∈ yms, a < s.ym.size) (ha : s.opa.toInt = src) (hb : s.opb.toInt = dst)
    (hc : s.opc.toInt = count) (hsrc : src + count ≤ s.ym.size) (hdst : dst + 3 * count ≤ s.tm.size) :
    ∃ t, step s = .next t ∧
      ((∃ i, i < count ∧ validTryte (readTryte (ymSeen 0 yms s) (src + i)) = false ∧
          (∀ j, j < i → validTryte (readTryte (ymSeen 0 yms s) (src + j)) = true) ∧
          RacedFault tms yms 4#4 (src + i) s t) ∨
        ((∀ i, i < count → validTryte (readTryte (ymSeen 0 yms s) (src + i)) = true) ∧
          RacedCompletion tms yms 0#32
            (s.tm.writeAll dst (decodeTrytes (trytesAt (ymLookedUp yms s) src count))) s.ym s t)) := by
  have hrun : runRacing .decode tms yms s = decodeSeeing (ymSeen 0 yms s) (ymLookedUp yms s) src dst count s :=
    runDecodeSeeing_of_natural _ _ ha hb hc
  refine ⟨_, step_racing_legal hp ht hy rfl hrun, ?_⟩
  rcases decodeSeeing_cases (ymSeen 0 yms s) (ymLookedUp yms s) src dst count s with
    ⟨_, hout⟩ | ⟨_, _, ⟨i, hi, h, hbad, hlow⟩ | ⟨h, hvalid⟩⟩
  · omega
  · exact .inl ⟨i, hi, hbad, hlow, racedFault_settle h⟩
  · exact .inr ⟨hvalid, racedCompletion_settle h⟩

/-! ### ENCODE -/

theorem step_racingEncode {src dst len : Nat} (hp : s.pending = .raceDuringCommand 0x00000002#32 tms yms :: rest)
    (ht : ∀ a ∈ tms, a < s.tm.size) (hy : ∀ a ∈ yms, a < s.ym.size) (ha : s.opa.toInt = src) (hb : s.opb.toInt = dst)
    (hc : s.opc.toInt = len) (hsrc : src + len ≤ s.tm.size) (hdst : dst + groupCount len ≤ s.ym.size) :
    ∃ t, step s = .next t ∧
      ((∃ j, j < len ∧ tRead (tmSeen 0 tms s) (src + j) = -2 ∧
          (∀ l, l < j → tRead (tmSeen 0 tms s) (src + l) ≠ -2) ∧ RacedFault tms yms 5#4 (src + j) s t) ∨
        ((∀ j, j < len → tRead (tmSeen 0 tms s) (src + j) ≠ -2) ∧
          RacedCompletion tms yms 0#32 s.tm
            (s.ym.writeAll dst (encodeTrits (tritsAt (tmSeen 1 tms s) src len))) s t)) := by
  have hrun : runRacing .encode tms yms s = encodeSeeing (tmSeen 0 tms s) (tmSeen 1 tms s) src dst len s :=
    runEncodeSeeing_of_natural _ _ ha hb hc
  refine ⟨_, step_racing_legal hp ht hy rfl hrun, ?_⟩
  rcases encodeSeeing_cases (tmSeen 0 tms s) (tmSeen 1 tms s) src dst len s with
    ⟨_, hout⟩ | ⟨_, _, ⟨j, hj, h, hbad, hlow⟩ | ⟨h, hvalid⟩⟩
  · omega
  · exact .inl ⟨j, hj, hbad, hlow, racedFault_settle h⟩
  · exact .inr ⟨hvalid, racedCompletion_settle h⟩

/-- R105: ENCODE's window after its writes. -/
theorem readTryte_encoded (y : Memory 8) (m : Memory 2) (src dst len g : Nat) (hg : g < groupCount len) :
    readTryte (y.writeAll dst (encodeTrits (tritsAt m src len))) (dst + g) =
      alphaAt (alphabetIndexOfValue (encodeSum m src len g)) := by
  have hlen : g < (encodeTrits (tritsAt m src len)).length := by simpa [encodeTrits_length] using hg
  rw [readTryte, read_writeAll_at _ _ _ _ g hlen]
  exact encodeTrits_get m src len g hlen

/-! ### ADD -/

theorem step_racingAdd {base len n : Nat} (hp : s.pending = .raceDuringCommand 0x00000003#32 tms yms :: rest)
    (ht : ∀ a ∈ tms, a < s.tm.size) (hy : ∀ a ∈ yms, a < s.ym.size) (ha : s.opa.toInt = base) (hc : s.opc.toInt = len)
    (hd : s.opd.toInt = n) (hfits : base + len ≤ s.tm.size) :
    ∃ t, step s = .next t ∧
      ((∃ j, j < len ∧ tRead (tmSeen 0 tms s) (base + j) = -2 ∧
          (∀ l, l < j → tRead (tmSeen 0 tms s) (base + l) ≠ -2) ∧ RacedFault tms yms 5#4 (base + j) s t) ∨
        ((∀ j, j < len → tRead (tmSeen 0 tms s) (base + j) ≠ -2) ∧
          RacedCompletion tms yms (word32 (addCarry (tritsAt (tmSeen 1 tms s) base len) n))
            (s.tm.writeAll base (addDigits (tritsAt (tmSeen 1 tms s) base len) n)) s.ym s t)) := by
  have hrun : runRacing .add tms yms s = addSeeing (tmSeen 0 tms s) (tmSeen 1 tms s) base len n s :=
    runAddSeeing_of_natural _ _ ha hc hd
  refine ⟨_, step_racing_legal hp ht hy rfl hrun, ?_⟩
  rcases addSeeing_cases (tmSeen 0 tms s) (tmSeen 1 tms s) base len n s with
    ⟨_, hout⟩ | ⟨_, ⟨j, hj, h, hbad, hlow⟩ | ⟨h, hvalid⟩⟩
  · omega
  · exact .inl ⟨j, hj, hbad, hlow, racedFault_settle h⟩
  · exact .inr ⟨hvalid, racedCompletion_settle h⟩

/-- Where two memories read alike, they do so after the same writes. -/
theorem readTrit_writeAll_congr {m m' : Memory 2} {a : Nat} (h : readTrit m a = readTrit m' a) (lo : Nat)
    (vs : List TritCell) : readTrit (m.writeAll lo vs) a = readTrit (m'.writeAll lo vs) a := by
  rw [readTrit_writeAll, readTrit_writeAll, h]

/-! ### INC -/

theorem step_racingInc {base len : Nat} (hp : s.pending = .raceDuringCommand 0x00000004#32 tms yms :: rest)
    (ht : ∀ a ∈ tms, a < s.tm.size) (hy : ∀ a ∈ yms, a < s.ym.size) (ha : s.opa.toInt = base) (hc : s.opc.toInt = len)
    (hfits : base + len < s.tm.size) :
    ∃ t k, step s = .next t ∧ k ≤ len ∧ (∀ j, j < k → tRead (tmSeen 0 tms s) (base + j) = 1) ∧
      (k < len → tRead (tmSeen 0 tms s) (base + k) ≠ 1) ∧
      ((tRead (tmSeen 1 tms s) (base + k) = -2 ∧ RacedFault tms yms 5#4 (base + k) s t) ∨
        (k = len ∧ tRead (tmSeen 1 tms s) (base + k) = 1 ∧ RacedFault tms yms 6#4 (base + len) s t) ∨
        (tRead (tmSeen 1 tms s) (base + k) ≠ -2 ∧ ¬ (k = len ∧ tRead (tmSeen 1 tms s) (base + k) = 1) ∧
          RacedCompletion tms yms 0#32
            (s.tm.writeAll base
              (List.replicate k (tritCell (-1)) ++ [tritCell (tRead (tmSeen 1 tms s) (base + k) + 1)]))
            s.ym s t)) := by
  have hrun : runRacing .inc tms yms s = incSeeing (tmSeen 0 tms s) (tmSeen 1 tms s) base len s :=
    runIncSeeing_of_natural _ _ ha hc
  rcases incSeeing_cases (tmSeen 0 tms s) (tmSeen 1 tms s) base len s with
    ⟨_, hout⟩ | ⟨_, k, hk, hones, hstop, ⟨_, rfl, hout⟩ | ⟨_, hend⟩⟩
  · omega
  · omega
  refine ⟨_, k, step_racing_legal hp ht hy rfl hrun, hk, hones, hstop, ?_⟩
  rcases hend with ⟨h, hbad⟩ | ⟨h, htop, hone⟩ | ⟨h, hvalid, hroom⟩
  · exact .inl ⟨hbad, racedFault_settle h⟩
  · exact .inr (.inl ⟨htop, hone, racedFault_settle h⟩)
  · exact .inr (.inr ⟨hvalid, hroom, racedCompletion_settle h⟩)

/-- R125: the cells INC writes, whatever the value that the last one takes. -/
theorem tRead_incremented (m : Memory 2) (base k : Nat) (v : TritCell) :
    (∀ j, j < k → tRead (m.writeAll base (List.replicate k (tritCell (-1)) ++ [v])) (base + j) = -1) ∧
      tRead (m.writeAll base (List.replicate k (tritCell (-1)) ++ [v])) (base + k) = tritValue v := by
  refine ⟨fun j hj => ?_, ?_⟩
  · rw [tRead, readTrit, read_writeAll_at _ _ _ _ j (by simp; omega), List.getElem_append_left (by simpa using hj),
      List.getElem_replicate]
    decide
  · rw [tRead, readTrit, read_writeAll_at _ _ _ _ k (by simp), List.getElem_append_right (by simp)]
    simp

theorem tRead_cases (m : Memory 2) (a : Nat) : tRead m a = -2 ∨ tRead m a = -1 ∨ tRead m a = 0 ∨ tRead m a = 1 :=
  tritValue_cases (readTrit m a)

/-- R35, R125: an unraced last cell, which both passes see alike, holds -1 or 0 when INC completes. -/
theorem tritValue_incremented {base len k : Nat} (hraced : base + k ∉ tms) (hk : k ≤ len)
    (hstop : k < len → tRead (tmSeen 0 tms s) (base + k) ≠ 1) (hvalid : tRead (tmSeen 1 tms s) (base + k) ≠ -2)
    (hroom : ¬ (k = len ∧ tRead (tmSeen 1 tms s) (base + k) = 1)) :
    tritValue (tritCell (tRead (tmSeen 1 tms s) (base + k) + 1)) = tRead s.tm (base + k) + 1 := by
  rw [tRead_tmSeen_unraced _ _ _ _ hraced] at hstop hvalid hroom ⊢
  have hvalues := tRead_cases s.tm (base + k)
  exact tritValue_tritCell _ (by omega)

end Sys2Proof.Machine

namespace Sys2Proof.Proofs
open Sys2Proof.Machine

/-- Settles O59: an unraced destination cell holds its part of the row that the write pass looks up. -/
theorem racingDecodeReadsTwice : Obligations.RacingDecodeReadsTwice := by
  intro s tms yms rest src dst count hp ht hy ha hb hc hsrc hdst
  obtain ⟨t, hstep, ⟨i, hi, hbad, hlow, hend⟩ | ⟨hvalid, hend⟩⟩ := step_racingDecode hp ht hy ha hb hc hsrc hdst
  · exact ⟨t, hstep, hend.result, .inl ⟨i, hi, hbad, hlow, hend.status, hend.faddr, hend.tm⟩⟩
  · refine ⟨t, hstep, hend.result, .inr ⟨hvalid, hend.status, hend.faddr, fun i hi => ?_⟩⟩
    obtain ⟨hrow, hown, hfree⟩ := alphaIndex_ymLookedUp (src + i) (hvalid i hi)
    obtain ⟨h0, h1, h2⟩ := tRead_decoded s.tm (ymLookedUp yms s) src dst count i hi
    exact ⟨_, hrow, hown, hfree, fun h => (hend.tRead h).trans h0, fun h => (hend.tRead h).trans h1,
      fun h => (hend.tRead h).trans h2⟩

/-- Settles O60, one command at a time. -/
theorem racingTritReadersReadTwice : Obligations.RacingTritReadersReadTwice := by
  refine ⟨fun s tms yms rest src dst len hp ht hy ha hb hc hsrc hdst => ?encode,
    fun s tms yms rest base len n hp ht hy ha hc hd hfits => ?add,
    fun s tms yms rest base len hp ht hy ha hc hfits => ?inc⟩
  case encode =>
    obtain ⟨t, hstep, ⟨j, hj, hbad, hlow, hend⟩ | ⟨hvalid, hend⟩⟩ := step_racingEncode hp ht hy ha hb hc hsrc hdst
    · exact ⟨t, hstep, hend.result, .inl ⟨j, hj, hbad, hlow, hend.status, hend.faddr, hend.ym⟩⟩
    · exact ⟨t, hstep, hend.result, .inr ⟨hvalid, hend.status, hend.faddr, fun g hg hraced =>
        (hend.ym _ hraced).trans (readTryte_encoded s.ym _ src dst len g hg)⟩⟩
  case add =>
    obtain ⟨t, hstep, ⟨j, hj, hbad, hlow, hend⟩ | ⟨hvalid, hend⟩⟩ := step_racingAdd hp ht hy ha hc hd hfits
    · exact ⟨t, hstep, .inl ⟨j, hj, hbad, hlow, hend.result, hend.status, hend.faddr, hend.tm⟩⟩
    · rw [addLoop_eq_writeAll]
      refine ⟨t, hstep, .inr ⟨hvalid, hend.result, hend.status, hend.faddr, fun a hraced => ?_⟩⟩
      have hsame : readTrit s.tm a = readTrit (tmSeen 1 tms s) a := by rw [readTrit_tmSeen, if_neg hraced]
      exact (hend.tm a hraced).trans (readTrit_writeAll_congr hsame base _)
  case inc =>
    obtain ⟨t, k, hstep, hk, hones, hstop, ⟨hbad, hend⟩ | ⟨htop, hone, hend⟩ | ⟨hvalid, hroom, hend⟩⟩ :=
      step_racingInc hp ht hy ha hc hfits
    · refine ⟨t, k, hstep, hend.result, hk, hones, hstop, ?_⟩
      rw [if_pos hbad]
      exact ⟨hend.status, hend.faddr, hend.tm⟩
    · refine ⟨t, k, hstep, hend.result, hk, hones, hstop, ?_⟩
      rw [if_neg (by omega), if_pos ⟨htop, hone⟩]
      exact ⟨hend.status, hend.faddr, hend.tm⟩
    · refine ⟨t, k, hstep, hend.result, hk, hones, hstop, ?_⟩
      rw [if_neg hvalid, if_neg hroom]
      obtain ⟨hbelow, hlast⟩ := tRead_incremented s.tm base k (tritCell (tRead (tmSeen 1 tms s) (base + k) + 1))
      exact ⟨hend.status, hend.faddr, fun j hj hraced => (hend.tRead hraced).trans (hbelow j hj),
        fun hraced => ((hend.tRead hraced).trans hlast).trans (tritValue_incremented hraced hk hstop hvalid hroom),
        fun a hraced hout => (hend.tm a hraced).trans (readTrit_writeAll_outside (by simp; omega))⟩

end Sys2Proof.Proofs
end

section
/-! PROOF. O1 to O4: the decoder and the legality check. A word is its two fields, so both accept exactly the words
whose RSV is 0 and whose OP is an operation's own (R70 to R74). -/

namespace Sys2Proof

/-! ### The fields of a command word -/

/-- R72: a value of OP is an operation's exactly when it lies in 0b001 .. 0b101. -/
theorem exists_opCode_iff (op : BitVec 3) : (∃ i, op = opCode i) ↔ 1 ≤ op.toNat ∧ op.toNat ≤ 5 := by
  constructor
  · rintro ⟨i, rfl⟩
    cases i <;> decide
  · have hrows : ∀ op : BitVec 3, 1 ≤ op.toNat ∧ op.toNat ≤ 5 → op = opCode .decode ∨ op = opCode .encode ∨
        op = opCode .add ∨ op = opCode .inc ∨ op = opCode .tteval := by decide
    intro h
    rcases hrows op h with h | h | h | h | h <;> exact ⟨_, h⟩

/-- R73: the other values of OP are the three reserved ones. -/
theorem reservedOp_iff (op : BitVec 3) :
    op = 0b000#3 ∨ op = 0b110#3 ∨ op = 0b111#3 ↔ ¬ (1 ≤ op.toNat ∧ op.toNat ≤ 5) := by
  revert op
  decide

/-- R70: RSV stands above OP, and they are the whole word. -/
theorem rsvField_append_opField (w : Word) : rsvField w ++ opField w = w :=
  BitVec.extractLsb'_append_extractLsb'_eq_extractLsb' (w := 32) rfl |>.trans BitVec.extractLsb'_eq_self

/-- R70, R72: the word of an operation is the one with its fields. -/
theorem eq_encode_iff (w : Word) (i : Instr) : w = encode i ↔ rsvField w = 0#29 ∧ opField w = opCode i := by
  constructor
  · rintro rfl
    cases i <;> decide
  · rintro ⟨hrsv, hop⟩
    rw [encode, ← hrsv, ← hop, rsvField_append_opField]

/-! ### The decoder and the legality check -/

theorem decodeOp_eq_ok_iff (op : BitVec 3) (i : Instr) : decodeOp op = .ok i ↔ op = opCode i := by
  revert op
  cases i <;> decide

/-- R74: the decoder gives an operation for its own word only. -/
theorem decodeWord_eq_ok_iff (w : Word) (i : Instr) : decodeWord w = .ok i ↔ w = encode i := by
  rw [eq_encode_iff, decodeWord]
  split
  case isTrue hrsv => simp [hrsv, decodeOp_eq_ok_iff]
  case isFalse hrsv => simp [hrsv]

@[simp] theorem decodeWord_encode (i : Instr) : decodeWord (encode i) = .ok i := (decodeWord_eq_ok_iff _ i).2 rfl

/-- R71: the decoder of the opcode table's rows reads the word that stands in the row's 32 bits. -/
theorem decodeTableWord_eq_some {w : Word} {i : Instr} (h : decodeWord w = .ok i) :
    decodeTableWord 32 w.toNat = some i := by
  have hmod : w.toNat % 2 ^ 32 = w.toNat := Nat.mod_eq_of_lt w.isLt
  have hfits : ¬ 4294967296 ≤ w.toNat := by omega
  simp only [decodeTableWord, hmod, if_neg hfits, BitVec.ofNat_toNat, BitVec.setWidth_eq, h]

theorem mem_legalWords_iff (w : Word) : w ∈ Machine.legalWords ↔ ∃ i, w = encode i := by
  have hwords : Machine.legalWords = [.decode, .encode, .add, .inc, .tteval].map encode := by decide
  rw [hwords, List.mem_map]
  constructor
  · rintro ⟨i, _, rfl⟩
    exact ⟨i, rfl⟩
  · rintro ⟨i, rfl⟩
    exact ⟨i, by cases i <;> decide, rfl⟩

/-- R72, R73: the check of `WellFormed`, in terms of the fields. -/
theorem commandWordLegal_eq_true_iff (w : Word) :
    commandWordLegal w = true ↔ rsvField w = 0#29 ∧ 1 ≤ (opField w).toNat ∧ (opField w).toNat ≤ 5 := by
  simp only [commandWordLegal, Bool.and_eq_true, decide_eq_true_eq, beq_iff_eq, and_assoc]
  rfl

theorem commandWordLegal_iff_decodes (w : Word) : commandWordLegal w = true ↔ ∃ i, decodeWord w = .ok i := by
  simp only [commandWordLegal_eq_true_iff, decodeWord_eq_ok_iff, eq_encode_iff, exists_and_left, exists_opCode_iff]

end Sys2Proof

namespace Sys2Proof.Proofs
open Sys2Proof.Machine

/-- Settles O1: five words are an operation's own, and three have RSV 0 over a reserved OP. -/
theorem opcodeTableWordsDecode : Obligations.OpcodeTableWordsDecode :=
  ⟨decodeWord_encode .decode, decodeWord_encode .encode, decodeWord_encode .add, decodeWord_encode .inc,
    decodeWord_encode .tteval, rfl, rfl, rfl⟩

/-- Settles O2: the legal words are the words of the operations. -/
theorem decodeAcceptsExactlyFiveWords : Obligations.DecodeAcceptsExactlyFiveWords :=
  ⟨fun w => by simp only [decodeWord_eq_ok_iff, mem_legalWords_iff], decodeWord_eq_ok_iff⟩

/-- Settles O3. -/
theorem encodeThenDecodeGivesInstruction : Obligations.EncodeThenDecodeGivesInstruction :=
  fun i _ => ⟨decodeWord_encode i, decodeTableWord_eq_some (decodeWord_encode i), (mem_legalWords_iff _).2 ⟨i, rfl⟩⟩

/-- Settles O4: the check and the decoder accept the same words, namely those with RSV 0 and OP not reserved. -/
theorem legalityCheckAgreesWithDecoder : Obligations.LegalityCheckAgreesWithDecoder := by
  intro w
  rw [← Bool.not_eq_true]
  constructor
  · rw [commandWordLegal_eq_true_iff, not_and_or, ← reservedOp_iff]
    change _ ↔ opField w = _ ∨ opField w = _ ∨ opField w = _ ∨ rsvField w ≠ _
    tauto
  · rw [commandWordLegal_iff_decodes]
    cases decodeWord w <;> simp

end Sys2Proof.Proofs
end

section
/-! PROOF. O6 and O53: from the host's list of actions to the meaning of a command. An assembler line stores its
operands and runs its command, whatever actions stand behind it (R79). -/

namespace Sys2Proof.Machine

/-! ### The word of an instruction -/

theorem commandAction_encode (i : Instr) : commandAction 32 (encode i).toNat = .writeReg 0 (encode i) := by
  rw [commandAction, Nat.mod_eq_of_lt (encode i).isLt, BitVec.ofNat_toNat, BitVec.setWidth_eq]

/-- R70, R187: a CMD write of an instruction's word is that instruction. -/
theorem step_writeCmd {s : State} {w : Word} {rest : List HostAction} {i : Instr}
    (hp : s.pending = .writeReg 0 w :: rest) (hw : decodeWord w = .ok i) : step s = exec i (s.withPending rest) :=
  (step_command s w rest hp).trans (command_legal w i _ hw)

/-! ### Assembler lines -/

/-- The state in which the registers that a line names hold the words of its operands (R78, R79). -/
def State.withOperands (s : State) : AsmLine → State
  | .decode src dst count => { s with opa := word32 src, opb := word32 dst, opc := word32 count }
  | .encode src dst len => { s with opa := word32 src, opb := word32 dst, opc := word32 len }
  | .add base len n => { s with opa := word32 base, opc := word32 len, opd := word32 n }
  | .inc base len => { s with opa := word32 base, opc := word32 len }
  | .tteval x1 x2 => { s with opa := word32 x1, opb := word32 x2 }

/-- R79: a line's operand writes leave its operands in their registers. -/
theorem run_operandWrites (l : AsmLine) (s : State) (k : Nat) (rest : List HostAction) :
    Sys2Proof.core.run (k + (operandWrites l).length) (s.withPending (operandWrites l ++ rest)) =
      Sys2Proof.core.run k ((s.withOperands l).withPending rest) := by
  cases l <;> rfl

/-- R79: a line runs its command on its operands, and the run goes on with the actions behind the line. -/
theorem run_expandLine {l : AsmLine} {s t : State} (h : exec (lineInstr l) (s.withOperands l) = .next t) (k : Nat)
    (rest : List HostAction) :
    Sys2Proof.core.run (k + (expandLine l).length) (s.withPending (expandLine l ++ rest)) =
      Sys2Proof.core.run k (t.withPending rest) := by
  have hcommand : step ((s.withOperands l).withPending (.writeReg 0 (encode (lineInstr l)) :: rest)) =
      .next (t.withPending rest) := by
    rw [step_writeCmd (withPending_pending _ _) (decodeWord_encode _), withPending_withPending, exec_withPending, h]
    rfl
  have hlength : k + (expandLine l).length = k + 1 + (operandWrites l).length := by
    rw [expandLine, List.length_append, List.length_singleton]
    omega
  rw [hlength, expandLine, List.append_assoc, run_operandWrites]
  exact run_next k _ _ hcommand

/-- R79: a line alone is its command on its operands, with no action left. -/
theorem run_expandLine_alone (l : AsmLine) (s : State) :
    Sys2Proof.core.run (expandLine l).length (s.withPending (expandLine l)) =
      exec (lineInstr l) ((s.withOperands l).withPending []) := by
  obtain ⟨t, ht⟩ := exec_next (lineInstr l) (s.withOperands l)
  have hrun := run_expandLine ht 0 []
  rw [Nat.zero_add, List.append_nil] at hrun
  rw [hrun, exec_withPending, ht]
  rfl

/-- R79, R80: a program of two lines runs the first and then, on what that leaves, the second. -/
theorem run_twoLines {l l' : AsmLine} {s t u : State} (hp : s.pending = expandProgram [l, l'])
    (ht : exec (lineInstr l) (s.withOperands l) = .next t) (hu : exec (lineInstr l') (t.withOperands l') = .next u) :
    Sys2Proof.core.run ((expandLine l').length + (expandLine l).length) s = .next (u.withPending []) := by
  have hprogram : expandProgram [l, l'] = expandLine l ++ (expandLine l' ++ []) := rfl
  have hsecond := run_expandLine hu 0 []
  rw [Nat.zero_add] at hsecond
  rw [← withPending_self s, hp, hprogram, run_expandLine ht, hsecond, run_zero]

end Sys2Proof.Machine

namespace Sys2Proof.Proofs
open Sys2Proof.Machine

/-- Settles O6. -/
theorem stepRunsDecodedCommand : Obligations.StepRunsDecodedCommand := by
  refine ⟨fun s w rest i hp hw _ => step_writeCmd hp hw, fun s i => ?_⟩
  have hp : (s.withFetchWord 32 (encode i).toNat).pending = .writeReg 0 (encode i) :: s.pending := by
    rw [withFetchWord_pending, commandAction_encode]
  exact step_writeCmd hp (decodeWord_encode i)

/-- Settles O53: each line is one case of `run_expandLine_alone`. -/
theorem assemblerLinesRun : Obligations.AssemblerLinesRun := fun s x y z =>
  ⟨run_expandLine_alone (.decode x y z) s, run_expandLine_alone (.encode x y z) s, run_expandLine_alone (.add x y z) s,
    run_expandLine_alone (.inc x y) s, run_expandLine_alone (.tteval x y) s⟩

end Sys2Proof.Proofs
end

section
/-! PROOF. O29 and O30: the two round trips. A group of three trits and a row of the tryte ROM name one another through
the balanced value (R31, R32), so ENCODE's character of a decoded row is the row's, and DECODE's row of an encoded group
is the group, with 0 for its missing trits (R108, R109). -/

namespace Sys2Proof.Machine

/-! ### Lines with operands that fit -/

/-- R10: a natural number of at most 2^31 - 1 is the value of its word. -/
theorem toInt_word32 {n : Nat} (h : n ≤ Config.maxCells) : (word32 n).toInt = n := by
  unfold Config.maxCells at h
  rw [word32, BitVec.toInt_ofInt_eq_self (by decide) (by omega) (by omega)]

/-- What a DECODE line leaves when it completes (R101, R171). -/
def State.decoded (s : State) (src dst count : Nat) : State :=
  complete 0#32 ((s.withOperands (.decode src dst count)).withTm
    (s.tm.writeAll dst (decodeTrytes (trytesAt s.ym src count))))

/-- What an ENCODE line leaves when it completes (R105, R171). -/
def State.encoded (s : State) (src dst len : Nat) : State :=
  complete 0#32 ((s.withOperands (.encode src dst len)).withYm
    (s.ym.writeAll dst (encodeTrits (tritsAt s.tm src len))))

section
variable (s : State) (a b n : Nat)

@[simp] theorem decoded_tm : (s.decoded a b n).tm = s.tm.writeAll b (decodeTrytes (trytesAt s.ym a n)) := rfl
@[simp] theorem decoded_ym : (s.decoded a b n).ym = s.ym := rfl
@[simp] theorem encoded_tm : (s.encoded a b n).tm = s.tm := rfl
@[simp] theorem encoded_ym : (s.encoded a b n).ym = s.ym.writeAll b (encodeTrits (tritsAt s.tm a n)) := rfl

theorem errField_decoded : errField (s.decoded a b n).status = 0#4 := errField_afterCompletion _
theorem errField_encoded : errField (s.encoded a b n).status = 0#4 := errField_afterCompletion _

end

/-- R101: a DECODE line completes when its windows lie in the memories and its codes are valid. -/
theorem exec_decodeLine {s : State} {src dst count : Nat} (htm : s.tm.size ≤ Config.maxCells)
    (hym : s.ym.size ≤ Config.maxCells) (hsrc : src + count ≤ s.ym.size) (hdst : dst + 3 * count ≤ s.tm.size)
    (hvalid : ∀ i, i < count → validTryte (readTryte s.ym (src + i)) = true) :
    exec .decode (s.withOperands (.decode src dst count)) = .next (s.decoded src dst count) :=
  DecodeReady.exec_eq
    ⟨toInt_word32 (by omega), toInt_word32 (by omega), toInt_word32 (by omega), hsrc, hdst, hvalid⟩

/-- R105: an ENCODE line completes when its windows lie in the memories and its trits are valid. -/
theorem exec_encodeLine {s : State} {src dst len : Nat} (htm : s.tm.size ≤ Config.maxCells)
    (hym : s.ym.size ≤ Config.maxCells) (hsrc : src + len ≤ s.tm.size) (hdst : dst + groupCount len ≤ s.ym.size)
    (htrits : ∀ j, j < len → IsTrit s.tm (src + j)) :
    exec .encode (s.withOperands (.encode src dst len)) = .next (s.encoded src dst len) :=
  EncodeReady.exec_eq
    ⟨toInt_word32 (by omega), toInt_word32 (by omega), toInt_word32 (by omega), hsrc, hdst, htrits⟩

/-! ### Rows and groups -/

/-- R31: the balanced value of row i selects index i. -/
theorem alphabetIndexOfValue_tryteRow {i : Nat} (h : i < 27) :
    alphabetIndexOfValue (tripletValue (tryteRow i)) = i := by
  rw [tripletValue_tryteRow i h, alphabetIndexOfValue]
  omega

/-- The trit at position `j` of a window of `len`, or 0 where the last group has no trit (R107). -/
def paddedTrit (m : Memory 2) (src len j : Nat) : Int := if j < len then tRead m (src + j) else 0

/-- The three trits of group `g` of a window, t0 first. -/
def paddedGroup (m : Memory 2) (src len g : Nat) : Int × Int × Int :=
  (paddedTrit m src len (3 * g), paddedTrit m src len (3 * g + 1), paddedTrit m src len (3 * g + 2))

/-- R105: the sum of a group is the balanced value of its trits. -/
theorem encodeSum_eq_tripletValue (m : Memory 2) (src len g : Nat) :
    encodeSum m src len g = tripletValue (paddedGroup m src len g) := by
  have hterm (weight j : Nat) : encodeTerm m src len weight j = weight * paddedTrit m src len j := by
    unfold encodeTerm paddedTrit
    split <;> simp
  simp only [encodeSum, hterm, tripletValue, paddedGroup]
  push_cast
  ring

theorem isTriplet_paddedGroup {m : Memory 2} {src len : Nat} (htrits : ∀ j, j < len → IsTrit m (src + j)) (g : Nat) :
    IsTriplet (paddedGroup m src len g) := by
  have htrit (j : Nat) :
      paddedTrit m src len j = -1 ∨ paddedTrit m src len j = 0 ∨ paddedTrit m src len j = 1 := by
    unfold paddedTrit
    split
    case isTrue hj => exact htrits j hj
    case isFalse => exact .inr (.inl rfl)
  exact isTriplet_of_trits (htrit _) (htrit _) (htrit _)

/-! ### The cells of one command, as the other reads them -/

theorem groupCount_triple (count : Nat) : groupCount (3 * count) = count := by
  unfold groupCount
  omega

section
variable (s : State) (src dst n : Nat)

/-- R101: the groups of DECODE's window are the rows of its codes. -/
theorem paddedGroup_decoded {i : Nat} (hi : i < n) :
    paddedGroup (s.decoded src dst n).tm dst (3 * n) i = tryteRow (alphaIndex (readTryte s.ym (src + i))) := by
  obtain ⟨h0, h1, h2⟩ := tRead_decoded s.tm s.ym src dst n i hi
  unfold paddedGroup paddedTrit
  rw [if_pos (by omega), if_pos (by omega), if_pos (by omega)]
  exact Prod.ext h0 (Prod.ext h1 h2)

/-- R35: DECODE's window holds trits. -/
theorem isTrit_decoded {j : Nat} (hj : j < 3 * n) : IsTrit (s.decoded src dst n).tm (dst + j) := by
  have hvalid : tRead (s.decoded src dst n).tm (dst + j) ≠ -2 := by
    have hlen : j < (decodeTrytes (trytesAt s.ym src n)).length := by simpa using hj
    rw [decoded_tm, tRead, readTrit, read_writeAll_at _ _ _ _ j hlen]
    exact decodeTrytes_trits _ _ (List.getElem_mem hlen)
  exact (tRead_cases _ _).resolve_left hvalid

/-- R105: ENCODE's window holds the characters of its groups. -/
theorem readTryte_encodedLine {g : Nat} (hg : g < groupCount n) :
    readTryte (s.encoded src dst n).ym (dst + g) =
      alphaAt (alphabetIndexOfValue (tripletValue (paddedGroup s.tm src n g))) :=
  (readTryte_encoded s.ym s.tm src dst n g hg).trans (by rw [encodeSum_eq_tripletValue])

/-- R36: ENCODE's window holds valid codes. -/
theorem validTryte_encodedLine {g : Nat} (hg : g < groupCount n) :
    validTryte (readTryte (s.encoded src dst n).ym (dst + g)) = true := by
  rw [readTryte_encodedLine s src dst n hg]
  exact alphaAt_valid _

end

/-! ### There and back -/

/-- R108: encoding a decoded window gives the codes back. -/
theorem readTryte_encoded_decoded {s : State} {src d e count i : Nat} (hi : i < count)
    (hvalid : validTryte (readTryte s.ym (src + i)) = true) :
    readTryte ((s.decoded src d count).encoded d e (3 * count)).ym (e + i) = readTryte s.ym (src + i) := by
  obtain ⟨hindex, hcode⟩ := validTryte_spec _ hvalid
  rw [readTryte_encodedLine _ _ _ _ ((groupCount_triple count).symm ▸ hi), paddedGroup_decoded _ _ _ _ hi,
    alphabetIndexOfValue_tryteRow hindex, hcode]

/-- R109: the row of a group's character is the group. -/
theorem tryteRow_encoded {s : State} {b e len g : Nat} (hg : g < groupCount len)
    (htrits : ∀ j, j < len → IsTrit s.tm (b + j)) :
    tryteRow (alphaIndex (readTryte (s.encoded b e len).ym (e + g))) = paddedGroup s.tm b len g := by
  obtain ⟨hindex, hrow⟩ := tryteRow_of_triplet (isTriplet_paddedGroup htrits g)
  rw [readTryte_encodedLine _ _ _ _ hg, alphaIndex_alphaAt _ hindex, hrow]

/-- R109: decoding an encoded window gives the trits back, and 0 in the padding. -/
theorem tRead_decoded_encoded {s : State} {b e d len j : Nat} (hj : j < 3 * groupCount len)
    (htrits : ∀ j, j < len → IsTrit s.tm (b + j)) :
    tRead ((s.encoded b e len).decoded e d (groupCount len)).tm (d + j) = paddedTrit s.tm b len j := by
  obtain ⟨g, k, hk, rfl⟩ : ∃ g k, k < 3 ∧ j = 3 * g + k := ⟨j / 3, j % 3, by omega, by omega⟩
  have hg : g < groupCount len := by omega
  obtain ⟨h0, h1, h2⟩ := tRead_decoded s.tm (s.encoded b e len).ym e d (groupCount len) g hg
  rw [tryteRow_encoded hg htrits] at h0 h1 h2
  match k, hk with
  | 0, _ => exact h0
  | 1, _ => exact h1
  | 2, _ => exact h2

end Sys2Proof.Machine

namespace Sys2Proof.Proofs
open Sys2Proof.Machine

/-- Settles O29: both commands complete, and each row that ENCODE reads selects the code it came from. -/
theorem tryteRoundTrip : Obligations.TryteRoundTrip := by
  intro s src d e count hp htm hym hsrc hd he hvalid
  have hdecode := exec_decodeLine htm hym hsrc hd hvalid
  have hencode := exec_encodeLine (s := s.decoded src d count) (src := d) (dst := e) (len := 3 * count)
    (by simpa using htm) hym (by simpa using hd) (by simpa [groupCount_triple] using he)
    fun _ hj => isTrit_decoded s src d count hj
  have hrun := run_twoLines hp hdecode hencode
  refine ⟨_, hrun, rfl, errField_encoded _ _ _ _, fun i hi => ?_⟩
  rw [withPending_ym, readTryte_encoded_decoded hi (hvalid i hi)]

/-- Settles O30: both commands complete, and each character that DECODE reads selects the group it came from. -/
theorem tritRoundTrip : Obligations.TritRoundTrip := by
  intro s b e d len hp htm hym hb he hd htrits
  have hencode := exec_encodeLine htm hym hb he htrits
  have hdecode := exec_decodeLine (s := s.encoded b e len) (src := e) (dst := d) (count := groupCount len)
    htm (by simpa using hym) (by simpa [groupCount] using he) hd fun _ hg => validTryte_encodedLine s b e len hg
  have hrun := run_twoLines hp hencode hdecode
  refine ⟨_, hrun, rfl, errField_decoded _ _ _ _, fun j hj => ?kept, fun j hlen hj => ?padding⟩
  case kept =>
    have hfits : j < 3 * groupCount len := by unfold groupCount; omega
    rw [withPending_tm, tRead_decoded_encoded hfits htrits, paddedTrit, if_pos hj]
  case padding => rw [withPending_tm, tRead_decoded_encoded hj htrits, paddedTrit, if_neg (by omega)]

end Sys2Proof.Proofs
end

section
/-! PROOF. O20 to O22 and O24 to O26: the codec command by command. What a completing command writes and which cells
it leaves are known from the sections above; new here are the faults by priority (R167). -/

namespace Sys2Proof.Machine

/-- R170: the record of a fault. -/
theorem raiseFault_eq_faultRecord (c : Cause) (a : Nat) (s : State) : raiseFault c a s = faultRecord s c.code a := by
  simp only [raiseFault, faultRecord, statusAfterFault_eq, word32_natCast]

/-! ### Faults by priority -/

variable {s : State}

/-- R162: a negative operand of DECODE. -/
theorem runDecodeSeeing_negative (checked used : Memory 8) (h : s.opa.toInt < 0 ∨ s.opb.toInt < 0 ∨ s.opc.toInt < 0) :
    runDecodeSeeing checked used s = raiseFault .invalidOperand 0 s := by
  rcases runDecodeSeeing_cases checked used s with ⟨hfault, _⟩ | ⟨src, dst, count, ha, hb, hc, _⟩
  · exact hfault
  · omega

/-- R162: a negative operand of ENCODE. -/
theorem runEncodeSeeing_negative (checked used : Memory 2) (h : s.opa.toInt < 0 ∨ s.opb.toInt < 0 ∨ s.opc.toInt < 0) :
    runEncodeSeeing checked used s = raiseFault .invalidOperand 0 s := by
  rcases runEncodeSeeing_cases checked used s with ⟨hfault, _⟩ | ⟨src, dst, len, ha, hb, hc, _⟩
  · exact hfault
  · omega

/-- R163: a window of DECODE past the end of its memory, whatever the source holds. -/
theorem decodeSeeing_outOfBounds (checked used : Memory 8) {src dst count : Nat}
    (h : s.ym.size < src + count ∨ s.tm.size < dst + 3 * count) :
    decodeSeeing checked used src dst count s = raiseFault .bounds 0 s := by
  rcases decodeSeeing_cases checked used src dst count s with ⟨hfault, _⟩ | ⟨hsrc, hdst, _⟩
  · exact hfault
  · omega

/-- R163: a window of ENCODE past the end of its memory, whatever the source holds. -/
theorem encodeSeeing_outOfBounds (checked used : Memory 2) {src dst len : Nat}
    (h : s.tm.size < src + len ∨ s.ym.size < dst + groupCount len) :
    encodeSeeing checked used src dst len s = raiseFault .bounds 0 s := by
  rcases encodeSeeing_cases checked used src dst len s with ⟨hfault, _⟩ | ⟨hsrc, hdst, _⟩
  · exact hfault
  · omega

/-- R164: with both windows inside, DECODE faults at the code that its check pass stops at. -/
theorem decodeSeeing_invalidTryte {checked : Memory 8} (used : Memory 8) {src dst count a : Nat}
    (hsrc : src + count ≤ s.ym.size) (hdst : dst + 3 * count ≤ s.tm.size)
    (h : firstBad (fun c => !validTryte c) src (trytesAt checked src count) = some a) :
    decodeSeeing checked used src dst count s = raiseFault .invalidTryte a s := by
  simp only [decodeSeeing, if_neg (Nat.not_lt.2 hsrc), if_neg (Nat.not_lt.2 hdst), h]

/-- R165: with both windows inside, ENCODE faults at the cell that its check pass stops at. -/
theorem encodeSeeing_invalidTrit {checked : Memory 2} (used : Memory 2) {src dst len a : Nat}
    (hsrc : src + len ≤ s.tm.size) (hdst : dst + groupCount len ≤ s.ym.size)
    (h : firstBad (fun t => t == invalidTrit) src (tritsAt checked src len) = some a) :
    encodeSeeing checked used src dst len s = raiseFault .invalidTrit a s := by
  simp only [encodeSeeing, if_neg (Nat.not_lt.2 hsrc), if_neg (Nat.not_lt.2 hdst), h]

/-- The outcome of a DECODE whose meaning ends in a fault. -/
theorem exec_decode_fault {c : Cause} {a : Nat} (h : runDecodeSeeing s.ym s.ym s = raiseFault c a s) :
    exec .decode s = .next (faultRecord s c.code a) :=
  congrArg Host.Outcome.next (h.trans (raiseFault_eq_faultRecord c a s))

/-- The outcome of an ENCODE whose meaning ends in a fault. -/
theorem exec_encode_fault {c : Cause} {a : Nat} (h : runEncodeSeeing s.tm s.tm s = raiseFault c a s) :
    exec .encode s = .next (faultRecord s c.code a) :=
  congrArg Host.Outcome.next (h.trans (raiseFault_eq_faultRecord c a s))

/-! ### Groups -/

/-- R105: with weight 1, a term of a group's sum is its trit, or 0 where the trit is missing. -/
theorem encodeTerm_one (m : Memory 2) (src len j : Nat) : encodeTerm m src len 1 j = paddedTrit m src len j := by
  simp only [encodeTerm, paddedTrit, Nat.cast_one, one_mul]

end Sys2Proof.Machine

namespace Sys2Proof.Proofs
open Sys2Proof.Machine

/-- Settles O20: DECODE's one write of its list of triplets, read cell by cell. -/
theorem decodeCompletes : Obligations.DecodeCompletes := by
  intro s src dst count h
  refine ⟨s.tm.writeAll dst (decodeTrytes (trytesAt s.ym src count)), ?_, writeAll_size .., fun i hi => ?inside,
    fun a ha => ?outside⟩
  · rw [h.exec_eq, complete_withTm_eq]
  case inside => exact tRead_decoded s.tm s.ym src dst count i hi
  case outside => exact readTrit_writeAll_outside (by simpa using ha)

/-- Settles O21: each check in turn, the ones before it passed. -/
theorem decodeFaultsByPriority : Obligations.DecodeFaultsByPriority := by
  refine fun s => ⟨fun hneg => exec_decode_fault (runDecodeSeeing_negative _ _ hneg),
    fun src dst count ha hb hc => ?_⟩
  have hrun := runDecodeSeeing_of_natural s.ym s.ym ha hb hc
  refine ⟨fun hout => ?bounds, fun hsrc hdst i hi hbad hlow => ?invalidTryte⟩
  case bounds => exact exec_decode_fault (hrun.trans (decodeSeeing_outOfBounds _ _ hout))
  case invalidTryte =>
    have hcheck := (decodeCheck_some s.ym src count (src + i)).2 ⟨i, hi, rfl, hbad, hlow⟩
    exact exec_decode_fault (hrun.trans (decodeSeeing_invalidTryte _ hsrc hdst hcheck))

/-- Settles O22: DECODE's frame, which has no YM cell in it. -/
theorem decodeWritesOnlyDestination : Obligations.DecodeWritesOnlyDestination := by
  intro s t h
  obtain ⟨htm, hym⟩ := exec_writesInside h
  exact ⟨fun a => hym a trivial, htm⟩

/-- Settles O24: ENCODE's one write of its list of characters, read group by group. -/
theorem encodeCompletes : Obligations.EncodeCompletes := by
  intro s src dst len h
  refine ⟨s.ym.writeAll dst (encodeTrits (tritsAt s.tm src len)), ?_, writeAll_size .., fun g hg => ?inside,
    fun a ha => ?outside⟩
  · rw [h.exec_eq, complete_withYm_eq]
  case inside => exact readTryte_encoded s.ym s.tm src dst len g hg
  case outside => exact readTryte_writeAll_outside (by simpa [encodeTrits_length, groupCount] using ha)

/-- Settles O25: each check in turn, the ones before it passed. -/
theorem encodeFaultsByPriority : Obligations.EncodeFaultsByPriority := by
  refine fun s => ⟨fun hneg => exec_encode_fault (runEncodeSeeing_negative _ _ hneg),
    fun src dst len ha hb hc => ?_⟩
  have hrun := runEncodeSeeing_of_natural s.tm s.tm ha hb hc
  refine ⟨fun hout => ?bounds, fun hsrc hdst j hj hbad hlow => ?invalidTrit⟩
  case bounds => exact exec_encode_fault (hrun.trans (encodeSeeing_outOfBounds _ _ hout))
  case invalidTrit =>
    have hcheck := (tritCheck_some s.tm src len (src + j)).2 ⟨j, hj, rfl, hbad, hlow⟩
    exact exec_encode_fault (hrun.trans (encodeSeeing_invalidTrit _ hsrc hdst hcheck))

/-- Settles O26: the sum is the balanced value of the padded group, which selects the group's row (R32). -/
theorem encodeIndexInRange : Obligations.EncodeIndexInRange := by
  intro m src len g htrits _
  have hgroup := isTriplet_paddedGroup htrits g
  obtain ⟨hlow, hhigh⟩ := tripletValue_range hgroup
  obtain ⟨hindex, hrow⟩ := tryteRow_of_triplet hgroup
  rw [encodeSum_eq_tripletValue, alphaIndex_alphaAt _ hindex, hrow]
  exact ⟨hlow, hhigh, hindex, by simp only [encodeTerm_one, paddedGroup]⟩

end Sys2Proof.Proofs
end

section
/-! PROOF. O31, O32, O34 to O39: ADD and INC (`42_arith.md`). A window of trits is determined by its value (R14), so what
ADD and INC leave is compared by value: one stage law gives ADD's sum, one turned-over chain gives INC's. -/

namespace Sys2Proof.Machine

/-! ### The top value -/

@[simp] theorem topValue_zero : topValue 0 = 0 := rfl

/-- R122: 3^n is odd, so the division in h leaves no remainder. -/
theorem two_mul_topValue (n : Nat) : 2 * topValue n + 1 = 3 ^ n := by
  obtain ⟨h, hodd⟩ : Odd ((3 : Int) ^ n) := Odd.pow (by decide)
  unfold topValue
  omega

theorem topValue_succ (n : Nat) : topValue (n + 1) = 1 + 3 * topValue n := by
  have hn := two_mul_topValue n
  have hsucc := two_mul_topValue (n + 1)
  rw [pow_succ] at hsucc
  omega

/-! ### The value of a window -/

@[simp] theorem windowValue_zero (m : Memory 2) (b : Nat) : windowValue m b 0 = 0 := rfl

theorem windowValue_succ (m : Memory 2) (b n : Nat) :
    windowValue m b (n + 1) = tRead m b + 3 * windowValue m (b + 1) n := rfl

/-- R14: a window is its low part and, weighted, its high part. -/
theorem windowValue_add (m : Memory 2) (b k n : Nat) :
    windowValue m b (k + n) = windowValue m b k + 3 ^ k * windowValue m (b + k) n := by
  simp only [windowValue, tritsAt, window_append, balancedValue_append, window_length]

theorem windowValue_congr {m m' : Memory 2} {b n : Nat}
    (h : ∀ j, j < n → readTrit m' (b + j) = readTrit m (b + j)) : windowValue m' b n = windowValue m b n :=
  congrArg balancedValue (window_congr _ m m' b n h)

/-- A property of the cells of a window, split into its lowest cell and the rest. -/
theorem forall_cell_succ (p : Nat → Prop) {b n : Nat} :
    (∀ j, j < n + 1 → p (b + j)) ↔ p b ∧ ∀ j, j < n → p (b + 1 + j) := by
  simp only [Nat.forall_lt_succ_left, Nat.add_zero, Nat.add_assoc, Nat.add_comm 1]

/-- R122: a window whose cells all hold `v`. -/
theorem windowValue_const {m : Memory 2} {b n : Nat} {v : Int} (h : ∀ j, j < n → tRead m (b + j) = v) :
    windowValue m b n = v * topValue n := by
  induction n generalizing b with
  | zero => simp
  | succ n ih =>
    obtain ⟨hlow, hrest⟩ := (forall_cell_succ (tRead m · = v)).1 h
    rw [windowValue_succ, hlow, ih hrest, topValue_succ]
    ring

/-- A chain of cells that hold `v`, the cell where it stops, and the cells above. -/
theorem windowValue_stop {m : Memory 2} {b k : Nat} {v : Int} (h : ∀ j, j < k → tRead m (b + j) = v) (r : Nat) :
    windowValue m b (k + (r + 1)) =
      v * topValue k + 3 ^ k * (tRead m (b + k) + 3 * windowValue m (b + k + 1) r) := by
  rw [windowValue_add, windowValue_const h, windowValue_succ]

theorem tRead_le_one (m : Memory 2) (a : Nat) : tRead m a ≤ 1 := by
  have hcases := tRead_cases m a
  omega

/-- R122: no window exceeds the top, not even one that holds the invalid code. -/
theorem windowValue_le_top (m : Memory 2) (b n : Nat) : windowValue m b n ≤ topValue n := by
  induction n generalizing b with
  | zero => simp
  | succ n ih =>
    have hlow := tRead_le_one m b
    have hrest := ih (b + 1)
    rw [windowValue_succ, topValue_succ]
    omega

/-- R126: only a window of all 1 is at the top. -/
theorem windowValue_eq_top_iff (m : Memory 2) (b n : Nat) :
    windowValue m b n = topValue n ↔ ∀ j, j < n → tRead m (b + j) = 1 := by
  refine ⟨fun h => ?_, fun h => by simpa using windowValue_const h⟩
  induction n generalizing b with
  | zero => simp
  | succ n ih =>
    have hlow := tRead_le_one m b
    have hrest := windowValue_le_top m (b + 1) n
    rw [windowValue_succ, topValue_succ] at h
    exact (forall_cell_succ (tRead m · = 1)).2 ⟨by omega, ih (b + 1) (by omega)⟩

theorem isTrit_iff (m : Memory 2) (a : Nat) : IsTrit m a ↔ tRead m a ≠ -2 := by
  have hcases := tRead_cases m a
  unfold IsTrit
  omega

theorem IsTrit.below_one {m : Memory 2} {a : Nat} (h : IsTrit m a) (hstop : tRead m a ≠ 1) :
    tRead m a = -1 ∨ tRead m a = 0 := by
  unfold IsTrit at h
  omega

theorem neg_top_le_windowValue {m : Memory 2} {b n : Nat} (h : ∀ j, j < n → IsTrit m (b + j)) :
    -topValue n ≤ windowValue m b n := by
  induction n generalizing b with
  | zero => simp
  | succ n ih =>
    obtain ⟨hlow, hrest⟩ := (forall_cell_succ (IsTrit m)).1 h
    have hvalue := ih hrest
    rw [windowValue_succ, topValue_succ]
    unfold IsTrit at hlow
    omega

/-- R14: the balanced form of a value is unique, as the lowest trit is the value's balanced residue modulo 3. -/
theorem readTrit_eq_of_windowValue_eq {m m' : Memory 2} {b n : Nat} (h : ∀ j, j < n → IsTrit m (b + j))
    (h' : ∀ j, j < n → IsTrit m' (b + j)) (hvalue : windowValue m b n = windowValue m' b n) :
    ∀ j, j < n → readTrit m (b + j) = readTrit m' (b + j) := by
  induction n generalizing b with
  | zero => simp
  | succ n ih =>
    obtain ⟨hlow, hrest⟩ := (forall_cell_succ (IsTrit m)).1 h
    obtain ⟨hlow', hrest'⟩ := (forall_cell_succ (IsTrit m')).1 h'
    rw [windowValue_succ, windowValue_succ] at hvalue
    unfold IsTrit at hlow hlow'
    have hsame : tRead m b = tRead m' b := by omega
    exact (forall_cell_succ fun a => readTrit m a = readTrit m' a).2
      ⟨tritValue_injective hsame, ih hrest hrest' (by omega)⟩

/-- Two memories with the same value in a window of trits, and the same cells around it, hold the same cells. -/
theorem readTrit_eq_of_window {m m' : Memory 2} {b n : Nat} (h : ∀ j, j < n → IsTrit m (b + j))
    (h' : ∀ j, j < n → IsTrit m' (b + j)) (hvalue : windowValue m b n = windowValue m' b n)
    (hout : ∀ a, a < b ∨ b + n ≤ a → readTrit m a = readTrit m' a) (a : Nat) : readTrit m a = readTrit m' a := by
  by_cases hin : b ≤ a ∧ a < b + n
  · obtain ⟨j, rfl⟩ := Nat.exists_eq_add_of_le hin.1
    exact readTrit_eq_of_windowValue_eq h h' hvalue j (by omega)
  · exact hout a (by omega)

/-! ### ADD's carry chain -/

/-- R120: a stage passes on no more than it takes in. -/
theorem stageCarry_le (t : TritCell) (n : Nat) : stageCarry t n ≤ n := by
  have ht := tritValue_cases t
  unfold stageCarry stageSum
  split <;> omega

theorem addCarry_le (ts : List TritCell) (n : Nat) : addCarry ts n ≤ n := by
  induction ts generalizing n with
  | nil => exact le_rfl
  | cons t ts ih => exact (ih _).trans (stageCarry_le t n)

/-- R122: the stage law, summed over the chain. -/
theorem balancedValue_addDigits {ts : List TritCell} (htrits : ∀ t ∈ ts, tritValue t ≠ -2) (n : Nat) :
    balancedValue (addDigits ts n) + addCarry ts n * 3 ^ ts.length = balancedValue ts + n := by
  induction ts generalizing n with
  | nil => simp [addDigits, addCarry]
  | cons t ts ih =>
    obtain ⟨hlow, hrest⟩ := List.forall_mem_cons.1 htrits
    have hstage := (stage_law t n hlow).1
    have hchain := ih hrest (stageCarry t n)
    simp only [addDigits, addCarry, balancedValue_cons, List.length_cons, pow_succ]
    linarith

/-- The memory that ADD leaves on valid input (R121). -/
def Memory.added (m : Memory 2) (base len n : Nat) : Memory 2 := m.writeAll base (addDigits (tritsAt m base len) n)

theorem windowValue_added {m : Memory 2} {base len : Nat} (htrits : ∀ j, j < len → IsTrit m (base + j)) (n : Nat) :
    windowValue (m.added base len n) base len + addCarry (tritsAt m base len) n * 3 ^ len =
      windowValue m base len + n := by
  have hwindow : tritsAt (m.added base len n) base len = addDigits (tritsAt m base len) n := by
    have hread := window_writeAll_self Config.powerOnTrit m base (addDigits (tritsAt m base len) n)
    rwa [addDigits_length, tritsAt_length] at hread
  have hcells : ∀ t ∈ tritsAt m base len, tritValue t ≠ -2 := by
    intro t ht
    obtain ⟨j, hj, rfl⟩ := List.getElem_of_mem ht
    rw [tritsAt_get]
    exact (htrits j (by simpa using hj)).ne_invalid
  have hsum := balancedValue_addDigits hcells n
  rwa [tritsAt_length, ← hwindow] at hsum

theorem readTrit_added_outside {m : Memory 2} {base len a : Nat} (n : Nat) (h : a < base ∨ base + len ≤ a) :
    readTrit (m.added base len n) a = readTrit m a :=
  readTrit_writeAll_outside (by simpa using h)

theorem AddReady.exec_eq_added {s : State} {base len n : Nat} (h : AddReady s base len n) :
    exec .add s =
      .next (completionRecord s (BitVec.ofNat 32 (addCarry (tritsAt s.tm base len) n)) (s.tm.added base len n) s.ym) := by
  rw [h.exec_eq, complete_withTm_eq, word32_natCast, Memory.added]

/-- R122: c is the quotient whose balanced remainder the window holds. -/
theorem carry_eq_ediv {c sum value : Int} {len : Nat} (hsum : value + c * 3 ^ len = sum) (hlow : -topValue len ≤ value)
    (hhigh : value ≤ topValue len) : c = (sum + topValue len) / 3 ^ len := by
  have htop := two_mul_topValue len
  have hzero : (value + topValue len) / 3 ^ len = 0 := Int.ediv_eq_zero_of_lt (by omega) (by omega)
  rw [← hsum, add_right_comm, Int.add_mul_ediv_right _ _ (by positivity), hzero, zero_add]

/-- R10: a natural below 2^31 is a word with bit 31 clear. -/
theorem msb_word32 {c : Nat} (h : c < 2147483648) : (word32 c).msb = false := by
  rw [BitVec.msb_eq_toInt, toInt_word32 (by unfold Config.maxCells; omega)]
  simp

/-! ### ADD's faults -/

section
variable {s : State}

/-- R162: a negative operand of ADD. -/
theorem runAddSeeing_negative (checked used : Memory 2) (h : s.opa.toInt < 0 ∨ s.opc.toInt < 0 ∨ s.opd.toInt < 0) :
    runAddSeeing checked used s = raiseFault .invalidOperand 0 s := by
  rcases runAddSeeing_cases checked used s with ⟨hfault, _⟩ | ⟨base, len, n, ha, hc, hd, _⟩
  · exact hfault
  · omega

/-- R163: a window of ADD past the end of TM, whatever it holds. -/
theorem addSeeing_outOfBounds (checked used : Memory 2) {base len : Nat} (n : Nat) (h : s.tm.size < base + len) :
    addSeeing checked used base len n s = raiseFault .bounds 0 s := by
  rw [addSeeing, if_pos h]

/-- R165: with its window inside TM, ADD faults at the cell that its check pass stops at. -/
theorem addSeeing_invalidTrit {checked : Memory 2} (used : Memory 2) {base len a : Nat} (n : Nat)
    (hfits : base + len ≤ s.tm.size)
    (h : firstBad (fun t => t == invalidTrit) base (tritsAt checked base len) = some a) :
    addSeeing checked used base len n s = raiseFault .invalidTrit a s := by
  simp only [addSeeing, if_neg (Nat.not_lt.2 hfits), h]

/-- The outcome of an ADD whose meaning ends in a fault. -/
theorem exec_add_fault {c : Cause} {a : Nat} (h : runAddSeeing s.tm s.tm s = raiseFault c a s) :
    exec .add s = .next (faultRecord s c.code a) :=
  congrArg Host.Outcome.next (h.trans (raiseFault_eq_faultRecord c a s))

end

/-! ### INC's chain -/

/-- R125: a chain that passes its whole window. -/
theorem rippleLength_eq_of_ones {m : Memory 2} {a n : Nat} (hones : ∀ j, j < n → tRead m (a + j) = 1) :
    rippleLength (tritsAt m a n) = n := by
  obtain ⟨hle, _, hstop⟩ := rippleLength_spec m a n
  exact hle.eq_of_not_lt fun hlt => hstop hlt (hones _ hlt)

/-- R125: the chain passes all cells of a window, or stops at the lowest that does not hold 1. -/
theorem ones_or_exists_stop (m : Memory 2) (b n : Nat) :
    (∀ j, j < n → tRead m (b + j) = 1) ∨
      ∃ k, k < n ∧ (∀ j, j < k → tRead m (b + j) = 1) ∧ tRead m (b + k) ≠ 1 := by
  obtain ⟨hle, hones, hstop⟩ := rippleLength_spec m b n
  rcases hle.eq_or_lt with heq | hlt
  · exact .inl (heq ▸ hones)
  · exact .inr ⟨_, hlt, hones, hstop hlt⟩

section
variable {s : State} {base len k : Nat} {used : Memory 2}

/-- R162: a negative operand of INC. -/
theorem runIncSeeing_negative (tested used : Memory 2) (h : s.opa.toInt < 0 ∨ s.opc.toInt < 0) :
    runIncSeeing tested used s = raiseFault .invalidOperand 0 s := by
  rcases runIncSeeing_cases tested used s with ⟨hfault, _⟩ | ⟨base, len, ha, hc, _⟩
  · exact hfault
  · omega

/-- R163: a window of INC past the end of TM, whatever it holds. -/
theorem incSeeing_outOfBounds (tested used : Memory 2) (h : s.tm.size < base + len) :
    incSeeing tested used base len s = raiseFault .bounds 0 s := by
  rw [incSeeing, if_pos h]

theorem incSeeing_eq_incAt {tested : Memory 2} (used : Memory 2) (hfits : base + len ≤ s.tm.size)
    (hchain : rippleLength (tritsAt tested base len) = k) :
    incSeeing tested used base len s = incAt used base len k s := by
  rw [incSeeing, if_neg (Nat.not_lt.2 hfits), hchain]

/-- R163: the second check, of the boundary cell. -/
theorem incAt_noBoundaryCell (used : Memory 2) (h : s.tm.size ≤ base + len) :
    incAt used base len len s = raiseFault .bounds 0 s := by
  rw [incAt, if_pos ⟨rfl, h⟩]

theorem incAt_invalidTrit (hcell : base + k < s.tm.size) (h : tRead used (base + k) = -2) :
    incAt used base len k s = raiseFault .invalidTrit (base + k) s := by
  rw [incAt, if_neg (by rintro ⟨rfl, hout⟩; omega), if_pos h]

theorem incAt_overflow (hcell : base + len < s.tm.size) (h : tRead used (base + len) = 1) :
    incAt used base len len s = raiseFault .incOverflow (base + len) s := by
  rw [incAt, if_neg (by omega), if_neg (by omega), if_pos ⟨rfl, h⟩]

/-- The memory that INC leaves when its chain stops at cell `base + k` (R125). -/
def Memory.incremented (m : Memory 2) (base k : Nat) : Memory 2 :=
  m.writeAll base (List.replicate k (tritCell (-1)) ++ [tritCell (tRead m (base + k) + 1)])

theorem incAt_completes (hcell : base + k < s.tm.size) (h : tRead s.tm (base + k) = -1 ∨ tRead s.tm (base + k) = 0) :
    incAt s.tm base len k s = complete 0#32 (s.withTm (s.tm.incremented base k)) := by
  rw [incAt, if_neg (by rintro ⟨rfl, hout⟩; omega), if_neg (by omega), if_neg (by omega)]
  rfl

/-- The outcome of an INC whose meaning ends in a fault. -/
theorem exec_inc_fault {c : Cause} {a : Nat} (h : runIncSeeing s.tm s.tm s = raiseFault c a s) :
    exec .inc s = .next (faultRecord s c.code a) :=
  congrArg Host.Outcome.next (h.trans (raiseFault_eq_faultRecord c a s))

/-- R166: a window and its boundary cell of all 1. -/
theorem exec_inc_overflow (ha : s.opa.toInt = base) (hc : s.opc.toInt = len) (hcell : base + len < s.tm.size)
    (hones : ∀ j, j < len + 1 → tRead s.tm (base + j) = 1) : exec .inc s = .next (faultRecord s 6#4 (base + len)) := by
  obtain ⟨hwindow, hboundary⟩ := Nat.forall_lt_succ_right.1 hones
  have hchain := incSeeing_eq_incAt s.tm hcell.le (rippleLength_eq_of_ones hwindow)
  exact exec_inc_fault ((runIncSeeing_of_natural s.tm s.tm ha hc).trans (hchain.trans (incAt_overflow hcell hboundary)))

/-- R127: the chain of a window of trits below its top stops inside it. -/
theorem AddReady.exists_incReady {n : Nat} (h : AddReady s base len n)
    (hbelow : windowValue s.tm base len < topValue len) : ∃ k, k < len ∧ IncReady s base len k := by
  obtain ⟨ha, hc, _, hfits, htrits⟩ := h
  rcases ones_or_exists_stop s.tm base len with hones | ⟨k, hk, hones, hstop⟩
  · exact absurd ((windowValue_eq_top_iff _ _ _).2 hones) hbelow.ne
  · exact ⟨k, hk, ha, hc, hfits, hk.le, by omega, hones, (htrits k hk).below_one hstop⟩

theorem IncReady.exec_eq (h : IncReady s base len k) :
    exec .inc s = .next (completionRecord s 0#32 (s.tm.incremented base k) s.ym) := by
  obtain ⟨ha, hc, hfits, hk, hcell, hones, hstop⟩ := h
  have hchain : rippleLength (tritsAt s.tm base len) = k := rippleLength_eq hk hones (by omega)
  have hrun := (runIncSeeing_of_natural s.tm s.tm ha hc).trans (incSeeing_eq_incAt s.tm hfits hchain)
  rw [← complete_withTm_eq, ← incAt_completes hcell hstop, ← hrun]
  rfl

/-- R171: a completion leaves ERR 0. -/
theorem errField_completionRecord (s : State) (r : Word) (m : Memory 2) :
    errField (completionRecord s r m s.ym).status = 0#4 := by
  rw [← complete_withTm_eq]
  exact errField_afterCompletion s.status

/-- R125: what STATUS.ERR says of INC's chain. -/
theorem exec_inc_errField {t : State} (ha : s.opa.toInt = base) (hc : s.opc.toInt = len) (h : exec .inc s = .next t) :
    (errField t.status = 0#4 → ∃ k, IncReady s base len k) ∧
      (errField t.status = 6#4 → ∀ j, j < len + 1 → tRead s.tm (base + j) = 1) := by
  obtain rfl : incSeeing s.tm s.tm base len s = t :=
    (runIncSeeing_of_natural s.tm s.tm ha hc).symm.trans (Host.Outcome.next.inj h)
  rcases incUnraced_cases base len s with
    ⟨hend, _⟩ | ⟨hfits, k, hk, hones, _, ⟨hend, _⟩ | ⟨hcell, ⟨hend, _⟩ | ⟨hend, rfl, hone⟩ | ⟨hend, hstop⟩⟩⟩
  · simp [hend, Cause.code]
  · simp [hend, Cause.code]
  · simp [hend, Cause.code]
  · exact ⟨by simp [hend, Cause.code], fun _ => Nat.forall_lt_succ_right.2 ⟨hones, hone⟩⟩
  · exact ⟨fun _ => ⟨k, ha, hc, hfits, hk, hcell, hones, hstop⟩, by simp [hend]⟩

end

/-! ### What INC leaves -/

section
variable {m m' : Memory 2} {base k : Nat}

/-- R125: from `m` to `m'` a chain of 1s turns over to -1 and the cell at `base + k`, where it stops, grows by one. -/
structure ChainStep (base k : Nat) (m m' : Memory 2) : Prop where
  ones : ∀ j, j < k → tRead m (base + j) = 1
  stop : tRead m (base + k) = -1 ∨ tRead m (base + k) = 0
  reset : ∀ j, j < k → tRead m' (base + j) = -1
  grown : tRead m' (base + k) = tRead m (base + k) + 1
  kept : ∀ a, a < base ∨ base + k < a → readTrit m' a = readTrit m a

theorem IncReady.chainStep {s : State} {len : Nat} (h : IncReady s base len k) :
    ChainStep base k s.tm (s.tm.incremented base k) := by
  obtain ⟨_, _, _, _, _, hones, hstop⟩ := h
  obtain ⟨hreset, hgrown, hkept⟩ := incremented_cells s.tm base k (tRead s.tm (base + k) + 1) (by omega)
  exact ⟨hones, hstop, hreset, hgrown, hkept⟩

/-- R125: over a window of 1s the chain reaches the boundary cell. -/
theorem ChainStep.eq_of_ones (h : ChainStep base k m m') {n : Nat} (hones : ∀ j, j < n → tRead m (base + j) = 1)
    (hk : k ≤ n) : k = n := by
  have hstop := h.stop
  refine hk.eq_of_not_lt fun hlt => ?_
  rw [hones k hlt] at hstop
  omega

/-- R126: the chain falls from its top to its bottom value, which the weight of the next cell makes up for but for 1. -/
theorem ChainStep.windowValue_eq (h : ChainStep base k m m') {n : Nat} (hk : k < n) :
    windowValue m' base n = windowValue m base n + 1 := by
  obtain ⟨r, rfl⟩ : ∃ r, n = k + (r + 1) := ⟨n - k - 1, by omega⟩
  have habove : windowValue m' (base + k + 1) r = windowValue m (base + k + 1) r :=
    windowValue_congr fun j _ => h.kept _ (by omega)
  have htop := two_mul_topValue k
  rw [windowValue_stop h.reset, windowValue_stop h.ones, h.grown, habove, ← htop]
  ring

end

/-! ### The reading of the source's loop -/

/-- R124: the loop turns a chain of 1s over and stops at a cell that holds less, or at the boundary cell. -/
theorem incReading_ones_append (k : Nat) (t : Int) (rest : List Int) (h : t ≤ 0 ∨ rest = []) :
    incReading (List.replicate k 1 ++ t :: rest) = List.replicate k (-1) ++ (t + 1) :: rest := by
  induction k with
  | zero =>
    match rest, h with
    | [], _ => rfl
    | u :: rest, h =>
      have ht : ¬ 1 < t + 1 := by simpa using h
      simp [incReading, ht]
  | succ k ih =>
    obtain ⟨u, us, hus⟩ : ∃ u us, List.replicate k 1 ++ t :: rest = u :: us :=
      List.exists_cons_of_ne_nil (by simp)
    rw [List.replicate_succ, List.replicate_succ, List.cons_append, List.cons_append, ← ih, hus]
    rfl

theorem cellValues_length (m : Memory 2) (b n : Nat) : (cellValues m b n).length = n := by simp [cellValues]

theorem cellValues_get (m : Memory 2) (b n j : Nat) (h : j < (cellValues m b n).length) :
    (cellValues m b n)[j] = tRead m (b + j) := by
  simp only [cellValues, List.getElem_map, tritsAt_get]
  rfl

theorem cellValues_add (m : Memory 2) (b k n : Nat) :
    cellValues m b (k + n) = cellValues m b k ++ cellValues m (b + k) n := by
  simp only [cellValues, tritsAt, window_append, List.map_append]

theorem cellValues_succ (m : Memory 2) (b n : Nat) : cellValues m b (n + 1) = tRead m b :: cellValues m (b + 1) n := rfl

theorem cellValues_const {m : Memory 2} {b n : Nat} {v : Int} (h : ∀ j, j < n → tRead m (b + j) = v) :
    cellValues m b n = List.replicate n v := by
  refine List.ext_getElem (by simp [cellValues_length]) fun j hj _ => ?_
  rw [cellValues_get, List.getElem_replicate]
  exact h j (by simpa [cellValues_length] using hj)

/-- A chain of cells that hold `v`, the cell where it stops, and the cells above. -/
theorem cellValues_stop {m : Memory 2} {b k : Nat} {v : Int} (h : ∀ j, j < k → tRead m (b + j) = v) (r : Nat) :
    cellValues m b (k + (r + 1)) = List.replicate k v ++ tRead m (b + k) :: cellValues m (b + k + 1) r := by
  rw [cellValues_add, cellValues_const h, cellValues_succ]

theorem two_not_mem_cellValues (m : Memory 2) (b n : Nat) : 2 ∉ cellValues m b n := by
  intro h
  obtain ⟨j, hj, heq⟩ := List.getElem_of_mem h
  rw [cellValues_get] at heq
  have hle := tRead_le_one m (b + j)
  omega

/-- R125: INC leaves what the loop leaves. -/
theorem ChainStep.cellValues_eq {m m' : Memory 2} {base k n : Nat} (h : ChainStep base k m m') (hk : k < n) :
    cellValues m' base n = incReading (cellValues m base n) := by
  obtain ⟨r, rfl⟩ : ∃ r, n = k + (r + 1) := ⟨n - k - 1, by omega⟩
  have habove : cellValues m' (base + k + 1) r = cellValues m (base + k + 1) r :=
    congrArg (List.map tritValue) (window_congr _ m m' _ r fun j _ => h.kept _ (by omega))
  have hlow : tRead m (base + k) ≤ 0 := by have hstop := h.stop; omega
  rw [cellValues_stop h.reset, cellValues_stop h.ones, incReading_ones_append _ _ _ (.inl hlow), h.grown, habove]

/-- R124: on all 1s the loop leaves 2 in the boundary cell. -/
theorem two_mem_incReading_of_ones {m : Memory 2} {b n : Nat} (h : ∀ j, j < n + 1 → tRead m (b + j) = 1) :
    2 ∈ incReading (cellValues m b (n + 1)) := by
  have hboundary : cellValues m (b + n) 1 = [1] := congrArg (· :: []) (h n (by omega))
  rw [cellValues_add, cellValues_const fun j hj => h j (by omega), hboundary, incReading_ones_append _ _ _ (.inr rfl)]
  simp

end Sys2Proof.Machine

namespace Sys2Proof.Proofs
open Sys2Proof.Machine

/-- R35: a command leaves a trit where one stood. -/
theorem isTrit_after_exec {i : Instr} {s t : State} {a : Nat} (hexec : exec i s = .next t) (h : IsTrit s.tm a) :
    IsTrit t.tm a :=
  (isTrit_iff _ _).2 fun hbad => h.ne_invalid (noCommandWritesInvalidTrit i s t a hexec hbad)

/-- Settles O31: the chain's sum, with the bounds that a window of trits has. -/
theorem addCompletesWithBalancedSum : Obligations.AddCompletesWithBalancedSum := by
  intro s base len n h
  have hexec := h.exec_eq_added
  obtain ⟨_, _, _, _, htrits⟩ := h
  have hsum := windowValue_added htrits n
  have hkept : ∀ j, j < len → IsTrit (s.tm.added base len n) (base + j) := fun j hj =>
    isTrit_after_exec hexec (htrits j hj)
  have hlow := neg_top_le_windowValue hkept
  have hhigh := windowValue_le_top (s.tm.added base len n) base len
  exact ⟨_, _, hexec, writeAll_size .., addCarry_le _ n, hsum, hkept, hlow, hhigh, carry_eq_ediv hsum hlow hhigh,
    fun a ha => readTrit_added_outside n ha⟩

/-- Settles O32: each check in turn, the ones before it passed. -/
theorem addFaultsByPriority : Obligations.AddFaultsByPriority := by
  refine fun s => ⟨fun hneg => exec_add_fault (runAddSeeing_negative _ _ hneg), fun base len n ha hc hd => ?_⟩
  have hrun := runAddSeeing_of_natural s.tm s.tm ha hc hd
  refine ⟨fun hout => ?bounds, fun hfits j hj hbad hlow => ?invalidTrit⟩
  case bounds => exact exec_add_fault (hrun.trans (addSeeing_outOfBounds _ _ n hout))
  case invalidTrit =>
    have hcheck := (tritCheck_some s.tm base len (base + j)).2 ⟨j, hj, rfl, hbad, hlow⟩
    exact exec_add_fault (hrun.trans (addSeeing_invalidTrit _ n hfits hcheck))

/-- Settles O34: with n = 0 the carry is 0, so the window keeps its value and with it its trits. -/
theorem addCornerCases : Obligations.AddCornerCases := by
  refine ⟨fun s base len h => ?zeroAddend, fun s base n h => ?emptyWindow, fun s t h => ?bit31⟩
  case zeroAddend =>
    obtain ⟨tm, c, hexec, _, hc, hsum, htrits, _, _, _, hout⟩ := addCompletesWithBalancedSum s base len 0 h
    obtain rfl : c = 0 := Nat.le_zero.1 hc
    obtain ⟨_, _, _, _, hbefore⟩ := h
    exact ⟨tm, hexec, readTrit_eq_of_window htrits hbefore (by simpa using hsum) hout⟩
  case emptyWindow => exact h.exec_eq_added
  case bit31 =>
    obtain rfl : runAdd s = t := Host.Outcome.next.inj h
    rcases runAdd_cases s with ⟨hend, _⟩ | ⟨base, len, n, _, _, hd, hrun⟩
    · simp [hend]
    rcases addSeeing_cases s.tm s.tm base len n s with ⟨hend, _⟩ | ⟨_, ⟨i, _, hend, _⟩ | ⟨hend, _⟩⟩
    · simp [hrun, hend]
    · simp [hrun, hend]
    · rw [hrun, hend, complete_result]
      exact msb_word32 ((addCarry_le _ n).trans_lt (natOperand_lt _ n ((natOperand_eq_some _ _).2 hd)))

/-- Settles O35: the cells of INC's one write. -/
theorem incCompletes : Obligations.IncCompletes := by
  intro s base len k h
  have hstep := h.chainStep
  exact ⟨_, h.exec_eq, writeAll_size .., hstep.reset, hstep.grown, hstep.kept⟩

/-- Settles O36: each check in turn, the ones before it passed. -/
theorem incFaultsByPriority : Obligations.IncFaultsByPriority := by
  refine fun s => ⟨fun hneg => exec_inc_fault (runIncSeeing_negative _ _ hneg), fun base len ha hc => ?_⟩
  have hrun := runIncSeeing_of_natural s.tm s.tm ha hc
  refine ⟨fun hout => ?window, fun hend hones => ?noBoundaryCell, fun hfits k hk hcell hones =>
    ⟨fun hbad => ?invalidTrit, fun htop hone => ?overflow⟩⟩
  case window => exact exec_inc_fault (hrun.trans (incSeeing_outOfBounds _ _ hout))
  case noBoundaryCell =>
    have hchain := incSeeing_eq_incAt s.tm hend.le (rippleLength_eq_of_ones hones)
    exact exec_inc_fault (hrun.trans (hchain.trans (incAt_noBoundaryCell _ hend.ge)))
  case invalidTrit =>
    have hchain := incSeeing_eq_incAt s.tm hfits (rippleLength_eq hk hones (by omega))
    exact exec_inc_fault (hrun.trans (hchain.trans (incAt_invalidTrit hcell hbad)))
  case overflow =>
    subst htop
    exact exec_inc_overflow ha hc hcell (Nat.forall_lt_succ_right.2 ⟨hones, hone⟩)

/-- Settles O37: at the top all cells hold 1 and the chain meets no other; below it the chain stops in the window. -/
theorem incLaw : Obligations.IncLaw := by
  intro s t base len ha hc hfits hexec
  obtain ⟨hzero, hsix⟩ := exec_inc_errField ha hc hexec
  refine ⟨?overflow, fun herr => ?completes⟩
  case overflow =>
    rw [windowValue_eq_top_iff]
    refine ⟨hsix, fun hones => ?_⟩
    obtain rfl := Host.Outcome.next.inj ((exec_inc_overflow ha hc hfits hones).symm.trans hexec)
    exact errField_afterFault .incOverflow
  case completes =>
    obtain ⟨k, hready⟩ := hzero herr
    have hstep := hready.chainStep
    obtain rfl := Host.Outcome.next.inj (hready.exec_eq.symm.trans hexec)
    obtain ⟨_, _, _, hk, _⟩ := hready
    rw [windowValue_eq_top_iff]
    refine ⟨hstep.windowValue_eq (by omega), fun a ha => hstep.kept a (by omega), fun hbelow => ?_, fun hones => ?_⟩
    · have hlt : k < len := hk.lt_of_ne fun heq =>
        hbelow.ne ((windowValue_eq_top_iff _ _ _).2 (heq ▸ hstep.ones))
      exact ⟨hstep.windowValue_eq hlt, hstep.kept _ (by omega)⟩
    · obtain rfl : k = len := hstep.eq_of_ones hones hk
      exact ⟨hstep.reset, hstep.grown⟩

/-- Settles O38: the chain of a window of trits stops at a cell below 1, where both write alike, or passes all cells. -/
theorem incAgreesWithSourceLoop : Obligations.IncAgreesWithSourceLoop := by
  intro s base len ha hc hfits htrits
  rcases ones_or_exists_stop s.tm base (len + 1) with hones | ⟨k, hk, hones, hstop⟩
  · have htwo := two_mem_incReading_of_ones hones
    exact ⟨fun hnone => absurd htwo hnone, fun _ => exec_inc_overflow ha hc hfits hones⟩
  · have hready : IncReady s base len k :=
      ⟨ha, hc, hfits.le, by omega, by omega, hones, (htrits k (by omega)).below_one hstop⟩
    have hstep := hready.chainStep
    have hloop := hstep.cellValues_eq hk
    refine ⟨fun _ => ⟨_, hready.exec_eq, hloop, fun a ha => hstep.kept a (by omega)⟩, fun htwo => ?_⟩
    exact absurd (hloop ▸ htwo) (two_not_mem_cellValues _ base (len + 1))

/-- Settles O39: below the top both leave a window of trits with its value grown by 1, and there is only one. -/
theorem incAgreesWithAddOneBelowTop : Obligations.IncAgreesWithAddOneBelowTop := by
  intro s ta ti base len h hadd hinc
  obtain ⟨tm, c, hexec, _, hc, hsum, htrits, hlow, hhigh, _, hout⟩ := addCompletesWithBalancedSum s base len 1 h
  obtain rfl := Host.Outcome.next.inj (hexec.symm.trans hadd)
  have hpow := two_mul_topValue len
  have hcarry : c = 0 ∨ c = 1 := by omega
  refine ⟨fun hbelow => ?below, fun htop => ?top⟩
  case below =>
    obtain rfl : c = 0 := hcarry.resolve_right fun hone => by subst hone; push_cast at hsum; omega
    obtain ⟨k, hk, hready⟩ := h.exists_incReady hbelow
    have hstep := hready.chainStep
    obtain rfl := Host.Outcome.next.inj (hready.exec_eq.symm.trans hinc)
    obtain ⟨_, _, _, _, hbefore⟩ := h
    have hkept : ∀ j, j < len → IsTrit (s.tm.incremented base k) (base + j) := fun j hj =>
      isTrit_after_exec hinc (hbefore j hj)
    have hvalue := hstep.windowValue_eq hk
    have hsame : windowValue (s.tm.incremented base k) base len = windowValue tm base len := by
      push_cast at hsum
      omega
    have hout' : ∀ a, a < base ∨ base + len ≤ a → readTrit (s.tm.incremented base k) a = readTrit tm a :=
      fun a ha => (hstep.kept a (by omega)).trans (hout a ha).symm
    exact ⟨rfl, errField_completionRecord s _ _, readTrit_eq_of_window hkept htrits hsame hout'⟩
  case top =>
    obtain rfl : c = 1 := hcarry.resolve_left fun hzero => by subst hzero; push_cast at hsum; omega
    refine ⟨rfl, hout _ (by omega), fun herr => ?_⟩
    obtain ⟨ha, hc, _⟩ := h
    obtain ⟨k, hready⟩ := (exec_inc_errField ha hc hinc).1 herr
    have hstep := hready.chainStep
    obtain rfl := Host.Outcome.next.inj (hready.exec_eq.symm.trans hinc)
    obtain ⟨_, _, _, hk, _⟩ := hready
    obtain rfl : k = len := hstep.eq_of_ones ((windowValue_eq_top_iff _ _ _).1 htop) hk
    exact hstep.grown

end Sys2Proof.Proofs
end

section
/-! PROOF. O40 to O43: the truth table and TTEVAL (`43_truth_table.md`). The three forms of f agree on its domain, where
the ROM's select is the pair of digits x1 + 1 and x2 + 1 in base 4 (R142); TTEVAL leaves the gate network's output there
and faults on every other input (R147). -/

namespace Sys2Proof.Machine

/-! ### The three forms of the function -/

/-- R146, R149: the gate trace and the ROM's entries, input by input. -/
theorem gateNetwork_romMux_eq_truthTable {x1 x2 : Int} (h1 : x1 = -1 ∨ x1 = 0 ∨ x1 = 1)
    (h2 : x2 = -1 ∨ x2 = 0 ∨ x2 = 1) : gateNetwork x1 x2 = truthTable x1 x2 ∧ romMux x1 x2 = truthTable x1 x2 := by
  rcases h1 with rfl | rfl | rfl
  case inl => rcases h2 with rfl | rfl | rfl <;> decide
  case inr.inl => rcases h2 with rfl | rfl | rfl <;> decide
  case inr.inr => rcases h2 with rfl | rfl | rfl <;> decide

/-! ### TTEVAL -/

/-- R171: the record of a completion that writes no memory. -/
theorem complete_eq_completionRecord (r : Word) (s : State) : complete r s = completionRecord s r s.tm s.ym :=
  complete_withTm_eq r s s.tm

/-- R141: on trits TTEVAL passes its check. -/
theorem runTteval_of_trits {s : State} {x1 x2 : Int} (ha : tritOperand s.opa = some x1)
    (hb : tritOperand s.opb = some x2) : runTteval s = complete (word32 (gateNetwork x1 x2)) s := by
  simp only [runTteval, ha, hb]

/-- R147: an input that is no trit, whichever of the two it is. -/
theorem runTteval_outsideDomain {s : State} (h : tritOperand s.opa = none ∨ tritOperand s.opb = none) :
    runTteval s = raiseFault .invalidOperand 0 s := by
  rcases runTteval_cases s with ⟨hfault, _⟩ | ⟨x1, x2, ha, hb, _⟩
  · exact hfault
  · simp [ha, hb] at h

end Sys2Proof.Machine

namespace Sys2Proof.Proofs
open Sys2Proof.Machine

/-- Settles O41: what is none of -1, 0, 1 reads as no trit operand, and TTEVAL checks both before it computes. -/
theorem ttevalFaultsOutsideDomain : Obligations.TtevalFaultsOutsideDomain := by
  intro s hout
  have hnone : tritOperand s.opa = none ∨ tritOperand s.opb = none :=
    hout.imp (tritOperand_eq_none _).2 (tritOperand_eq_none _).2
  exact congrArg Host.Outcome.next ((runTteval_outsideDomain hnone).trans (raiseFault_eq_faultRecord _ _ _))

/-- Settles O40: TTEVAL computes with the gate network, which is the value table on trits. -/
theorem ttevalCompletes : Obligations.TtevalCompletes := by
  intro s x1 x2 ha hb h1 h2
  have hrun := runTteval_of_trits ((tritOperand_eq_some _ _).2 ⟨ha, h1⟩) ((tritOperand_eq_some _ _).2 ⟨hb, h2⟩)
  obtain ⟨hgate, _⟩ := gateNetwork_romMux_eq_truthTable h1 h2
  rw [hgate] at hrun
  exact congrArg Host.Outcome.next (hrun.trans (complete_eq_completionRecord _ s))

/-- Settles O42: nine entries of the table and three words, each a closed fact. -/
theorem truthTableRows : Obligations.TruthTableRows := by
  unfold Obligations.TruthTableRows
  decide

/-- Settles O43: the ROM's select is 4 (x1 + 1) + (x2 + 1) with both digits at most 2, so it is at most 10 and neither
3 nor 7. -/
theorem truthTableFormsAgree : Obligations.TruthTableFormsAgree := by
  intro x1 x2 h1 h2
  obtain ⟨hgate, hrom⟩ := gateNetwork_romMux_eq_truthTable h1 h2
  exact ⟨hgate, hrom, by omega⟩

end Sys2Proof.Proofs
end

section
/-! PROOF. O5, O7 and O47: the step at a CMD write and with no action to come (`60_exceptions.md`). A command leaves one of
the two records, and ERR tells them apart: no cause of a fault has the code 0. -/

namespace Sys2Proof.Machine

variable {s t : State}

/-- R169 to R171: the ends of a command as register records. -/
theorem CommandEnd.record (h : CommandEnd s t) :
    (∃ (c : Cause) (a : Nat), c ≠ .none ∧ t = faultRecord s c.code a) ∨
      ∃ (r : Word) (m : Memory 2) (y : Memory 8), t = completionRecord s r m y := by
  cases h with
  | fault c a hc => exact .inl ⟨c, a, hc, raiseFault_eq_faultRecord c a s⟩
  | result r => exact .inr ⟨r, s.tm, s.ym, complete_eq_completionRecord r s⟩
  | tm r a vs => exact .inr ⟨r, s.tm.writeAll a vs, s.ym, complete_withTm_eq r s _⟩
  | ym r a vs => exact .inr ⟨r, s.tm, s.ym.writeAll a vs, complete_withYm_eq r s _⟩

/-- R24: ERR of a fault's record is the cause's code. -/
theorem errField_faultRecord (s : State) (c : Cause) (a : Nat) : errField (faultRecord s c.code a).status = c.code := by
  rw [← raiseFault_eq_faultRecord]
  exact errField_afterFault c

/-- R187: what the step at a CMD write answers is the end of that command. -/
theorem commandEnd_of_step {w : Word} {rest : List HostAction} (hp : s.pending = .writeReg 0 w :: rest)
    (hstep : step s = .next t) : CommandEnd (s.withPending rest) t := by
  obtain ⟨u, hu, hend⟩ := command_end w (s.withPending rest)
  rw [step_command s w rest hp, hu] at hstep
  exact Host.Outcome.next.inj hstep ▸ hend

end Sys2Proof.Machine

namespace Sys2Proof.Proofs
open Sys2Proof.Machine

/-- Settles O47: ERR is not 0 in a fault's record and 0 in a completion's. -/
theorem faultsArePrecise : Obligations.FaultsArePrecise := by
  intro s t w rest hp hstep
  rcases (commandEnd_of_step hp hstep).record with ⟨c, a, hc, rfl⟩ | ⟨r, m, y, rfl⟩
  · have herr := errField_faultRecord (s.withPending rest) c a
    exact ⟨fun _ => ⟨a, by rw [herr]⟩, fun hzero => absurd (herr.symm.trans hzero) (code_ne_zero hc)⟩
  · have herr : errField (completionRecord (s.withPending rest) r m y).status = 0#4 := errField_completionRecord _ r m
    exact ⟨fun hne => absurd herr hne, fun _ => ⟨r, m, y, rfl⟩⟩

/-- Settles O5: the decoder rejects such a word (O4), and a rejected word's command is the fault. -/
theorem illegalWordFaults : Obligations.IllegalWordFaults := by
  intro s w rest hp hreserved
  obtain ⟨hcheck, hdecoder⟩ := legalityCheckAgreesWithDecoder w
  obtain ⟨e, he⟩ := hdecoder.1 (hcheck.2 hreserved)
  calc step s = command w (s.withPending rest) := step_command s w rest hp
    _ = .next (raiseFault .illegalOp 0 (s.withPending rest)) := command_illegal w e _ he
    _ = .next (faultRecord (s.withPending rest) 1#4 0) := congrArg _ (raiseFault_eq_faultRecord .illegalOp 0 _)

/-- Settles O7. -/
theorem stepWaitsWithoutHostAction : Obligations.StepWaitsWithoutHostAction := step_idle

end Sys2Proof.Proofs
end

section
/-! PROOF. O8, O12 to O14: reset, and that no interaction of the host's table stops the machine
(`70_reset_and_hazards.md`). -/

namespace Sys2Proof.Machine

/-! ### Reset during a command -/

theorem resetDuring_legal {w : Word} {i : Instr} (h : decodeWord w = .ok i) (s : State) :
    resetDuring w s = abandon i s := by
  simp only [resetDuring, h]

theorem resetDuring_illegal {w : Word} {e : DecodeError} (h : decodeWord w = .error e) (s : State) :
    resetDuring w s = s.resetRegisters.drawn := by
  simp only [resetDuring, h]

theorem step_resetDuring {s : State} {w : Word} {rest : List HostAction}
    (hp : s.pending = .resetDuringCommand w :: rest) : step s = .next ((resetDuring w s).withPending rest) := by
  rw [step_action s _ rest hp, perform, resetDuring_withPending]

@[simp] theorem scrambleTm_size (s : State) (window : Nat × Nat) : (scrambleTm s window).size = s.tm.size :=
  writeAll_size ..

@[simp] theorem scrambleYm_size (s : State) (window : Nat × Nat) : (scrambleYm s window).size = s.ym.size :=
  writeAll_size ..

theorem readTrit_scrambleTm (s : State) (window : Nat × Nat) (a : Nat) :
    readTrit (scrambleTm s window) a =
      if window.1 ≤ a ∧ a < window.1 + window.2 then Config.freeTrit s.draws a else readTrit s.tm a :=
  read_freeCells ..

theorem readTryte_scrambleYm (s : State) (window : Nat × Nat) (a : Nat) :
    readTryte (scrambleYm s window) a =
      if window.1 ≤ a ∧ a < window.1 + window.2 then Config.freeTryte s.draws a else readTryte s.ym a :=
  read_freeCells ..

/-! ### Actions that do not stop -/

/-- R187: a CMD write ends whatever its word; the other numbers store an operand or do nothing (R59). -/
theorem writeRegister_next (n : Nat) (w : Word) (s : State) : ∃ t, writeRegister n w s = .next t := by
  match n with
  | 0 =>
    obtain ⟨t, ht, _⟩ := command_end w s
    exact ⟨t, ht⟩
  | 1 | 2 | 3 | 4 => exact ⟨_, rfl⟩
  | n + 5 => exact ⟨s, rfl⟩

/-- R186: the table's actions reach only cells that exist, and the refused accesses are none of them. -/
theorem perform_next {act : HostAction} {s : State} (h : InInterface s act) : ∃ t, perform act s = .next t := by
  cases act with
  | writeReg n w => exact writeRegister_next n w s
  | readReg n => exact ⟨_, rfl⟩
  | prepareTrit a v => exact ⟨_, setTrit_present v h⟩
  | prepareTryte a c => exact ⟨_, setTryte_present c h⟩
  | reset => exact ⟨_, rfl⟩
  | resetDuringCommand w => exact ⟨_, rfl⟩
  | narrowAccess n => exact False.elim h
  | accessDuringCommand => exact False.elim h
  | raceDuringCommand w tms yms =>
    obtain ⟨htms, hyms⟩ := h
    exact ⟨_, racingCommand_next w tms yms s htms hyms⟩
  | raceTrit a => exact ⟨_, setTrit_present (s := s.drawn) _ h⟩
  | raceTryte a => exact ⟨_, setTryte_present (s := s.drawn) _ h⟩

end Sys2Proof.Machine

namespace Sys2Proof.Proofs
open Sys2Proof.Machine

/-- Settles O8: the action answers a next state, and the list of what is left is no part of what it does. -/
theorem interfaceActionsNeverStop : Obligations.InterfaceActionsNeverStop := by
  intro s act rest hp h
  obtain ⟨t, ht⟩ := perform_next h
  refine ⟨t.withPending rest, ?_, withPending_pending t rest⟩
  rw [step_action s act rest hp, perform_withPending, ht]
  rfl

/-- Settles O14: an abandoned command's window is filled from one draw, and a rejected word abandons none. -/
theorem resetDuringCommandFreesWriteWindow : Obligations.ResetDuringCommandFreesWriteWindow := by
  refine ⟨fun s w i rest hp hw => ?legal, fun s w e rest hp hw => ?illegal⟩
  case legal =>
    refine ⟨scrambleTm s (tmWrites i s), scrambleYm s (ymWrites i s), ?step, scrambleTm_size .., scrambleYm_size ..,
      readTrit_scrambleTm s _, readTryte_scrambleYm s _⟩
    rw [step_resetDuring hp, resetDuring_legal hw]
    rfl
  case illegal =>
    rw [step_resetDuring hp, resetDuring_illegal hw]
    rfl

/-- Settles O12: the status is the word with no cause and ERR_ANY clear. -/
theorem resetRegisterValues : Obligations.ResetRegisterValues := by
  have hstatus : State.reset.status = statusWord false .none := zeroStatus_eq_statusWord
  refine ⟨rfl, rfl, rfl, rfl, rfl, rfl, rfl, ?err, ?errAny, rfl⟩
  case err =>
    rw [hstatus]
    exact errField_statusWord false .none
  case errAny =>
    rw [hstatus]
    exact errAnyBit_statusWord false .none

/-- Settles O13: the action is `resetRegisters`, which has no memory in it (R183). -/
theorem hostResetKeepsMemories : Obligations.HostResetKeepsMemories :=
  fun s rest hp => step_action s .reset rest hp

end Sys2Proof.Proofs
end
